-- ==== Sys2Proof/Word.lean ====
section
/-! DEFINITION. The value types of MOCE (00_scope.md rules R14, R15): bytes, 32-bit register words, byte strings. -/

namespace Sys2Proof

/-- An unsigned 8-bit value (R14). -/
abbrev Byte := BitVec 8

/-- A 32-bit register word, bit 0 least significant (R15). -/
abbrev Word := BitVec 32

/-- A finite sequence of bytes, index 0 first (R14). -/
abbrev Bytes := List Byte

end Sys2Proof
end

