-- ==== Sys2Proof/Syntax.lean ====
section
/-! DEFINITION. The nine commands of spec/opcode_table.json as syntax, and the names their fields stand for
(30_encoding.md rules R101 to R107). -/

namespace Sys2Proof

/-- The two block ciphers MOCE drives (R3). -/
inductive Alg where
  | aes
  | tdes
deriving DecidableEq, Repr, Inhabited

/-- The 2-bit `ALG` field (R102): two ciphers and two reserved values, which decode and then end in
`UnsupportedMode`. -/
inductive AlgField where
  | aes
  | tdes
  | reserved2
  | reserved3
deriving DecidableEq, Repr

/-- The four modes of operation (R102 `MODE`). -/
inductive Mode where
  | ecb
  | cbc
  | cfb
  | ofb
deriving DecidableEq, Repr

/-- The direction (R102 `DIR`). -/
inductive Dir where
  | enc
  | dec
deriving DecidableEq, Repr

/-- One constructor per row of the opcode table (R103). `c` and `c2` are slot indices, `h` a hash index: unsigned
4-bit fields of the word, zero-extended (R106). -/
inductive Instr where
  | nop
  | modeInit (c : Nat) (alg : AlgField) (mode : Mode) (dir : Dir) (ivp : Bool)
  | modeUpdate (c : Nat)
  | modeFinal (c : Nat)
  | hmacInit (c : Nat) (h : Nat)
  | hmacUpdate (c : Nat)
  | hmacFinal (c : Nat)
  | hmacCopy (c : Nat) (c2 : Nat)
  | ctxRelease (c : Nat)
deriving DecidableEq, Repr

end Sys2Proof
end

