-- ==== Sys2Proof/WellFormed.lean ====
section
/-! DEFINITION. Which instruction terms are the meaning of some command word: the slot and hash indices fit their
4-bit fields (30_encoding.md rule R101). The other fields cannot be out of range by their types. -/

namespace Sys2Proof

/-- An index that a 4-bit field of the command word can hold (R101 `CTX`, `CTX2`, `HASH`). -/
def fits4 (n : Nat) : Bool := n < 16

/-- Every index of the instruction fits its field. -/
def WellFormed : Instr → Bool
  | .nop => true
  | .modeInit c _ _ _ _ => fits4 c
  | .modeUpdate c => fits4 c
  | .modeFinal c => fits4 c
  | .hmacInit c h => fits4 c && fits4 h
  | .hmacUpdate c => fits4 c
  | .hmacFinal c => fits4 c
  | .hmacCopy c c2 => fits4 c && fits4 c2
  | .ctxRelease c => fits4 c

end Sys2Proof
end

