-- ==== Sys2Proof/Decode.lean ====
section
/-! DEFINITION. Decoding a 32-bit command word (30_encoding.md rules R100 to R105), total and rejecting by name, and
the encoder (R101, R107). -/

namespace Sys2Proof

/-- The nine opcodes (R103). -/
inductive Opcode where
  | nop
  | modeInit
  | modeUpdate
  | modeFinal
  | hmacInit
  | hmacUpdate
  | hmacFinal
  | hmacCopy
  | ctxRelease
deriving DecidableEq, Repr

/-- Why a word is no command (R105); either way the engine ends it with `BadCommand`. -/
inductive DecodeError where
  /-- The `OPC` byte is none of R103's. -/
  | unknownOpcode
  /-- A bit outside the opcode's `USED_MASK` is set. -/
  | reservedBits
deriving DecidableEq, Repr

/-- What the decoder answers. -/
inductive Decoded where
  | instr (i : Instr)
  | reject (e : DecodeError)
deriving DecidableEq, Repr

/-- The `OPC` value of each opcode (R103). -/
def Opcode.code : Opcode → BitVec 8
  | .nop => 0x00
  | .modeInit => 0x01
  | .modeUpdate => 0x02
  | .modeFinal => 0x03
  | .hmacInit => 0x11
  | .hmacUpdate => 0x12
  | .hmacFinal => 0x13
  | .hmacCopy => 0x14
  | .ctxRelease => 0x20

/-- Every opcode, in the order of R103. -/
def Opcode.all : List Opcode :=
  [.nop, .modeInit, .modeUpdate, .modeFinal, .hmacInit, .hmacUpdate, .hmacFinal, .hmacCopy, .ctxRelease]

/-- `USED_MASK(opc)` (R104). -/
def usedMask : Opcode → Word
  | .nop => 0x000000FF
  | .modeInit => 0x003F0FFF
  | .modeUpdate => 0x00000FFF
  | .modeFinal => 0x00000FFF
  | .hmacInit => 0x0F000FFF
  | .hmacUpdate => 0x00000FFF
  | .hmacFinal => 0x00000FFF
  | .hmacCopy => 0x0000FFFF
  | .ctxRelease => 0x00000FFF

/-- The opcode whose `OPC` byte the word carries in bits 7:0, if any (R100, R103). -/
def opcodeOf (w : Word) : Option Opcode :=
  Opcode.all.find? fun o => o.code == w.extractLsb' 0 8

/-- `CTX`, bits 11:8, zero-extended (R100 `c`). -/
def fieldCtx (w : Word) : Nat := (w.extractLsb' 8 4).toNat

/-- `CTX2`, bits 15:12, zero-extended (R100 `c2`). -/
def fieldCtx2 (w : Word) : Nat := (w.extractLsb' 12 4).toNat

/-- `HASH`, bits 27:24, zero-extended (R100 `h`). -/
def fieldHash (w : Word) : Nat := (w.extractLsb' 24 4).toNat

/-- `MODE`, bits 17:16 (R102). -/
def fieldMode (w : Word) : Mode :=
  if w.extractLsb' 16 2 = 0#2 then .ecb
  else if w.extractLsb' 16 2 = 1#2 then .cbc
  else if w.extractLsb' 16 2 = 2#2 then .cfb
  else .ofb

/-- `ALG`, bits 19:18 (R102). -/
def fieldAlg (w : Word) : AlgField :=
  if w.extractLsb' 18 2 = 0#2 then .aes
  else if w.extractLsb' 18 2 = 1#2 then .tdes
  else if w.extractLsb' 18 2 = 2#2 then .reserved2
  else .reserved3

/-- `DIR`, bit 20 (R102). -/
def fieldDir (w : Word) : Dir := if w.getLsbD 20 then .dec else .enc

/-- `IVP`, bit 21 (R102). -/
def fieldIvp (w : Word) : Bool := w.getLsbD 21

/-- The instruction of an opcode with its operands taken from the word (R100, R106). -/
def operandsOf : Opcode → Word → Instr
  | .nop, _ => .nop
  | .modeInit, w => .modeInit (fieldCtx w) (fieldAlg w) (fieldMode w) (fieldDir w) (fieldIvp w)
  | .modeUpdate, w => .modeUpdate (fieldCtx w)
  | .modeFinal, w => .modeFinal (fieldCtx w)
  | .hmacInit, w => .hmacInit (fieldCtx w) (fieldHash w)
  | .hmacUpdate, w => .hmacUpdate (fieldCtx w)
  | .hmacFinal, w => .hmacFinal (fieldCtx w)
  | .hmacCopy, w => .hmacCopy (fieldCtx w) (fieldCtx2 w)
  | .ctxRelease, w => .ctxRelease (fieldCtx w)

/-- The dispatch of R100 up to the command's own rule: first the opcode, then the bits outside its `USED_MASK`. -/
def decode (w : Word) : Decoded :=
  match opcodeOf w with
  | none => .reject .unknownOpcode
  | some o => if w &&& ~~~ usedMask o = 0 then .instr (operandsOf o w) else .reject .reservedBits

/-- The opcode of an instruction (R103). -/
def opcodeOfInstr : Instr → Opcode
  | .nop => .nop
  | .modeInit .. => .modeInit
  | .modeUpdate _ => .modeUpdate
  | .modeFinal _ => .modeFinal
  | .hmacInit _ _ => .hmacInit
  | .hmacUpdate _ => .hmacUpdate
  | .hmacFinal _ => .hmacFinal
  | .hmacCopy _ _ => .hmacCopy
  | .ctxRelease _ => .ctxRelease

/-- `MODE` values (R102). -/
def Mode.bits : Mode → Nat
  | .ecb => 0
  | .cbc => 1
  | .cfb => 2
  | .ofb => 3

/-- `ALG` values (R102). -/
def AlgField.bits : AlgField → Nat
  | .aes => 0
  | .tdes => 1
  | .reserved2 => 2
  | .reserved3 => 3

/-- `DIR` values (R102). -/
def Dir.bits : Dir → Nat
  | .enc => 0
  | .dec => 1

/-- A value shifted to a field's place (R107 `<<`). -/
def placed (v lo : Nat) : Word := BitVec.ofNat 32 v <<< lo

/-- The `OPC` byte in its place. -/
def opcodeWord (o : Opcode) : Word := o.code.setWidth 32

/-- The command word of an instruction (R101, R107). -/
def encode : Instr → Word
  | .nop => opcodeWord .nop
  | .modeInit c a m d v =>
    opcodeWord .modeInit ||| placed c 8 ||| placed m.bits 16 ||| placed a.bits 18 ||| placed d.bits 20 |||
      placed v.toNat 21
  | .modeUpdate c => opcodeWord .modeUpdate ||| placed c 8
  | .modeFinal c => opcodeWord .modeFinal ||| placed c 8
  | .hmacInit c h => opcodeWord .hmacInit ||| placed c 8 ||| placed h 24
  | .hmacUpdate c => opcodeWord .hmacUpdate ||| placed c 8
  | .hmacFinal c => opcodeWord .hmacFinal ||| placed c 8
  | .hmacCopy c c2 => opcodeWord .hmacCopy ||| placed c 8 ||| placed c2 12
  | .ctxRelease c => opcodeWord .ctxRelease ||| placed c 8

/-- The word that the opcode table's numbering calls `w`: a command is one 32-bit word, bit 0 its least significant
bit, so the table's number is the word (R101); bits from `nbits` up are 0. -/
def tableWord (nbits w : Nat) : Word := BitVec.ofNat 32 (w % 2 ^ nbits)

/-- What the decoder reads from a row of the opcode table. -/
def decodeTableWord (nbits w : Nat) : Option Instr :=
  match decode (tableWord nbits w) with
  | .instr i => some i
  | .reject _ => none

end Sys2Proof
end

