-- ==== Sys2Proof/Config.lean ====
section
/-! DEFINITION. What is fixed for one MOCE: the parameters of 00_scope.md rule R7, the external primitives of rules
R12 and R13, and the free value of rule R72. The primitives and the free value are opaque: no proof can see them. -/

namespace Sys2Proof

/-- `B(alg)`, the block size in bytes (R7). -/
def blockBytes : Alg → Nat
  | .aes => 16
  | .tdes => 8

/-- `KEYLENS(alg)`, the accepted key lengths in bytes (R7). -/
def keyLens : Alg → List Nat
  | .aes => [16, 24, 32]
  | .tdes => [24]

/-- `BMAX`, the width in bytes of every block-size register of a slot (R9). -/
def bmax : Nat := 16

/-- `HBMAX`, the largest hash block size and the width in bytes of `IPAD` and `OPAD` (R9, R47). -/
def hbmax : Nat := 128

/-- The numeric parameters of R7 that the host can read in `HWCFG` (R40), and the platform's base address (R70). -/
structure HwConfig where
  nctx : Nat
  nhash : Nat
  dbufBytes : Nat
  base : Nat
deriving DecidableEq, Repr

/-- The legal values of R7. -/
def HwConfig.legal (hw : HwConfig) : Bool :=
  1 ≤ hw.nctx && hw.nctx ≤ 16 && 1 ≤ hw.nhash && hw.nhash ≤ 16 &&
    hw.dbufBytes % 16 == 0 && 16 ≤ hw.dbufBytes && hw.dbufBytes ≤ 4096

/-- The parameters of the machine that `State.reset` describes: the defaults of R7 for `NCTX` and `DBUF_BYTES`, and
`NHASH = 1` as in the conventions of 95_test_vectors.md. DESIGN CHOICE (log 2): unsafe for claims about
`State.reset` alone; every other claim is about every state, so about every value of these parameters. -/
def Config.hw : HwConfig := { nctx := 8, nhash := 1, dbufBytes := 4096, base := 0 }

/-- A state of a hash primitive, `HState(h)` of R13, written out as a byte string. DESIGN CHOICE (log 5): safe. -/
abbrev HState := Bytes

/-- The external primitives (R12, R13): total pure functions, with the lengths those rules give them. `INV_alg` and
`INCR_h` are no part of it: they are hypotheses of the claims that need them. A hash with `HD > HB` cannot be
attached (93_implementation_defined.md I18). -/
structure Primitives where
  encrypt : Alg → Bytes → Bytes → Bytes := fun _ _ x => x
  decrypt : Alg → Bytes → Bytes → Bytes := fun _ _ y => y
  encrypt_length : ∀ alg k x, x.length = blockBytes alg → (encrypt alg k x).length = blockBytes alg := by
    intro _ _ _ h; exact h
  decrypt_length : ∀ alg k y, y.length = blockBytes alg → (decrypt alg k y).length = blockBytes alg := by
    intro _ _ _ h; exact h
  hashBlock : Nat → Nat := fun _ => 1
  hashDigest : Nat → Nat := fun _ => 1
  hash_sizes : ∀ h, 1 ≤ hashDigest h ∧ hashDigest h ≤ hashBlock h ∧ hashBlock h ≤ hbmax := by
    intro _; decide
  hashInit : Nat → HState := fun _ => []
  hashUpdate : Nat → HState → Bytes → HState := fun _ s _ => s
  hashFinal : Nat → HState → Bytes := fun h _ => List.replicate (hashDigest h) 0
  hashFinal_length : ∀ h s, (hashFinal h s).length = hashDigest h := by
    intro _ _; exact List.length_replicate
deriving Inhabited

/-- The primitives the platform attached to this MOCE: OPEN in R7, so opaque. -/
opaque Config.primitives : Primitives

/-- FREE VALUE (log 3). The byte that DBUF holds at an offset nothing has written since the reset numbered `draw`
(R72: "each byte holds an unspecified value, which a model draws freely"). -/
opaque Config.powerOnByte (draw off : Nat) : Byte

/-- `H_h(m)`, the one-shot hash (R13). -/
def Primitives.hash (P : Primitives) (h : Nat) (m : Bytes) : Bytes :=
  P.hashFinal h (P.hashUpdate h (P.hashInit h) m)

/-- `INV_alg` of R12, for claims that need it. -/
def Primitives.InvAlg (P : Primitives) (alg : Alg) : Prop :=
  ∀ k x, k.length ∈ keyLens alg → x.length = blockBytes alg → P.decrypt alg k (P.encrypt alg k x) = x

/-- `INCR_h` of R13, for claims that need it. -/
def Primitives.IncrHash (P : Primitives) (h : Nat) : Prop :=
  (∀ s a b, P.hashUpdate h (P.hashUpdate h s a) b = P.hashUpdate h s (a ++ b)) ∧ ∀ s, P.hashUpdate h s [] = s

end Sys2Proof
end

