-- ==== Sys2Proof/Machine/Bytes.lean ====
section
/-! DEFINITION. Byte-string operations of 00_scope.md rule R14, and the fixed-width form of a slot register (R9). -/

namespace Sys2Proof.Machine

/-- `rep(v, n)` (R14). -/
def rep (v : Byte) (n : Nat) : Bytes := List.replicate n v

/-- `zeros(n)` (R14). -/
def zeros (n : Nat) : Bytes := rep 0 n

/-- `a XOR b` on byte strings of equal length (R14). -/
def xorBytes (a b : Bytes) : Bytes := List.zipWith (· ^^^ ·) a b

/-- The content of an `n`-byte register that holds `a`: `a` in its first bytes, zeros after it (R9). -/
def padTo (n : Nat) (a : Bytes) : Bytes := (a ++ zeros n).take n

end Sys2Proof.Machine
end

