-- ==== Sys2Proof/Machine/Memory.lean ====
section
/-! DEFINITION. The data buffer's contents as plain data (20_memory.md rules R71, R72): the bytes written since reset,
by offset. An unlisted offset has no value of its own; what reading it gives is a free value (Operands.lean). -/

namespace Sys2Proof.Machine

/-- The written bytes of DBUF, offsets strictly rising. An offset that is not listed has no value: `Memory.lookup`
answers `none`, which no entry equals, so equal contents are equal lists. -/
abbrev Memory := List Host.Cell

/-- The byte written at offset `a`, if one was written since reset. -/
def Memory.lookup : Memory → Nat → Option Byte
  | [], _ => none
  | (k, b) :: m, a => if k = a then some b else Memory.lookup m a

/-- Write one byte, keeping the offsets rising. -/
def Memory.store : Memory → Nat → Byte → Memory
  | [], a, v => [(a, v)]
  | (k, b) :: m, a, v =>
    if a < k then (a, v) :: (k, b) :: m
    else if a = k then (a, v) :: m
    else (k, b) :: Memory.store m a v

/-- `MemWrite(off, s)`: byte `s[i]` to `DBUF[off+i]` (R16, R78). -/
def Memory.storeBytes : Memory → Nat → Bytes → Memory
  | m, _, [] => m
  | m, off, b :: bs => Memory.storeBytes (Memory.store m off b) (off + 1) bs

/-- The canonical form: offsets strictly rising. -/
def Memory.wf : Memory → Bool
  | [] => true
  | [_] => true
  | (a, _) :: (b, w) :: m => a < b && Memory.wf ((b, w) :: m)

/-- Every listed offset lies below `n`. -/
def Memory.below (n : Nat) (m : Memory) : Bool := m.all fun c => c.1 < n

end Sys2Proof.Machine
end

