-- ==== Sys2Proof/Machine/Slot.lean ====
section
/-! DEFINITION. A context slot (10_state.md rules R44 to R49): its fields, its cleared and its secret-cleared value. -/

namespace Sys2Proof.Machine

/-- `st` (R44). -/
inductive Lifecycle where
  | free
  | active
  | finalized
deriving DecidableEq, Repr

/-- `kind` (R44). -/
inductive Kind where
  | none
  | mode
  | hmac
deriving DecidableEq, Repr

/-- One context slot with the fields of R45 (MODE) and R47 (HMAC), as R48 lists them. `r` is `BMAX` bytes wide and
its first `B(alg)` bytes are the register (R9); `ipad` and `opad` are `HBMAX` bytes wide and their first `HB(hash)`
bytes are the padded keys (R47). `NB` is the length of `bbuf` (R45). `hs = none` is the cleared hash state ⊥. -/
structure Slot where
  st : Lifecycle
  kind : Kind
  alg : Alg
  mode : Mode
  dir : Dir
  key : Bytes
  r : Bytes
  bbuf : Bytes
  hash : Nat
  ipad : Bytes
  opad : Bytes
  hs : Option HState
deriving DecidableEq, Repr

/-- The cleared slot value (R48). -/
def Slot.cleared : Slot :=
  { st := .free, kind := .none, alg := .aes, mode := .ecb, dir := .enc, key := [], r := zeros bmax, bbuf := [],
    hash := 0, ipad := zeros hbmax, opad := zeros hbmax, hs := none }

/-- The secret-cleared form (R49). DEDUCED (log 7): the zeroed registers are written in their full width. -/
def Slot.secretCleared (sl : Slot) : Slot :=
  { sl with key := [], r := zeros bmax, bbuf := [], ipad := zeros hbmax, opad := zeros hbmax, hs := none }

/-- `NB` (R45). -/
def Slot.nb (sl : Slot) : Nat := sl.bbuf.length

/-- `B(s.alg)` (R130). -/
def Slot.blockLen (sl : Slot) : Nat := blockBytes sl.alg

/-- The meaningful bytes of `R` (R9, R45). -/
def Slot.reg (sl : Slot) : Bytes := sl.r.take sl.blockLen

/-- The slot with `R <- bs` (R9). -/
def Slot.withReg (sl : Slot) (bs : Bytes) : Slot := { sl with r := padTo bmax bs }

end Sys2Proof.Machine
end

