-- ==== Sys2Proof/Machine/State.lean ====
section
/-! DEFINITION. The state of MOCE (10_state.md rule R30) as plain data, the host agent's pending moves beside it, and
the state after reset (R53, R250). -/

namespace Sys2Proof.Machine

/-- No step of MOCE stops the machine with a fault: an error is a status code (R225) and a bad host access a bus
error response (R227), both next states. So this type has no constructor. Safe. -/
inductive Fault where
deriving DecidableEq, Repr

/-- Why there is no meaning for an instruction. -/
inductive Refusal where
  /-- Raised by `exec`'s arm of an instruction that has no meaning yet (none here). Safe: the model stops. -/
  | notModelled (mnemonic : String)
deriving DecidableEq, Repr

/-- The status codes of `STATUS.ERR` (60_exceptions.md rule R220). The other byte values are never written. -/
inductive StatusCode where
  | ok
  | invalidKeyLength
  | invalidIVLength
  | unsupportedMode
  | invalidBlockLength
  | contextFinalized
  | badCommand
  | badContext
  | bufferRange
deriving DecidableEq, Repr

/-- The fields of `STATUS` (R34); its reserved bits read as 0. -/
structure StatusReg where
  busy : Bool
  done : Bool
  overrun : Bool
  err : StatusCode
deriving DecidableEq, Repr

/-- `ARG0 .. ARG3` (R38), or the latched copy of them (R41). -/
structure ArgRegs where
  arg0 : Word
  arg1 : Word
  arg2 : Word
  arg3 : Word
deriving DecidableEq, Repr

/-- The engine phase (R42). -/
inductive Phase where
  | idle
  | busy
deriving DecidableEq, Repr

/-- `CMDL`, the latched command (R41). -/
structure Latch where
  word : Word
  args : ArgRegs
deriving DecidableEq, Repr

/-- One host access to the bus (20_memory.md rule R73): an address of the host's address space, a width in bytes,
and the data of a write. -/
inductive Access where
  | read (addr : Nat) (width : Nat)
  | write (addr : Nat) (width : Nat) (value : Word)
deriving DecidableEq, Repr

/-- What the bus answers to an access (R73). A read's data are zero-extended to a word. -/
inductive Response where
  | data (value : Word)
  | written
  | busError
deriving DecidableEq, Repr

/-- Who moves next: the host with an access, the engine with its one step, or the reset input (R42, R83, R250). -/
inductive Move where
  | host (a : Access)
  | engine
  | reset
deriving DecidableEq, Repr

/-- The state. The first eight fields are the machine's (R30); `hw` holds what the read-only register `HWCFG` shows
(R40) and the window's base, and no step changes it. The last three are the model's own (log 1, log 3). -/
structure State where
  /-- `STATUS` (R34). -/
  status : StatusReg
  /-- `ARG0 .. ARG3` (R38). -/
  args : ArgRegs
  /-- `RESULT_LEN` (R39). -/
  resultLen : Word
  /-- `phase` (R42). -/
  phase : Phase
  /-- `CMDL` (R41). -/
  cmdl : Latch
  /-- `slot[0 .. NCTX-1]` (R43). -/
  slots : List Slot
  /-- `DBUF`: the bytes written since reset (R71, R72). -/
  dbuf : Memory
  /-- The parameters `NCTX`, `NHASH`, `DBUF_BYTES` (R7, R40) and `MOCE_BASE` (R70). -/
  hw : HwConfig
  /-- The model's own: the number of the reset whose free bytes the unwritten part of `DBUF` holds (R72). -/
  draws : Nat
  /-- The model's own: the moves still to come, in order; the host agent and the schedule (R83). -/
  moves : List Move
  /-- The model's own: what the bus has answered the host, oldest first (70_reset_and_hazards.md rule R258). -/
  responses : List Response
deriving DecidableEq, Repr

/-- `STATUS` at reset (R53). -/
def StatusReg.reset : StatusReg := { busy := false, done := false, overrun := false, err := .ok }

/-- All four argument registers zero (R53). -/
def ArgRegs.zero : ArgRegs := { arg0 := 0, arg1 := 0, arg2 := 0, arg3 := 0 }

/-- The reset table of R53 for the parameters `hw`, with nothing written to DBUF and the free bytes of reset number
`draw`. -/
def State.resetWith (hw : HwConfig) (draw : Nat) : State :=
  { status := StatusReg.reset
    args := ArgRegs.zero
    resultLen := 0
    phase := .idle
    cmdl := { word := 0, args := ArgRegs.zero }
    slots := List.replicate hw.nctx Slot.cleared
    dbuf := []
    hw := hw
    draws := draw
    moves := []
    responses := [] }

/-- The machine right after reset (R53, R250). -/
def State.reset : State := State.resetWith Config.hw 0

end Sys2Proof.Machine
end

