-- ==== Sys2Proof/Machine/Flags.lean ====
section
/-! DEFINITION. The flags of MOCE (10_state.md rule R51): the status codes' numbers (R220), the `STATUS` word (R34),
its write-1-to-clear bit, and the read-only `HWCFG` word (R40). -/

namespace Sys2Proof.Machine

/-- The numbers of the status codes (R220). -/
def StatusCode.toByte : StatusCode → Byte
  | .ok => 0x00
  | .invalidKeyLength => 0x01
  | .invalidIVLength => 0x02
  | .unsupportedMode => 0x03
  | .invalidBlockLength => 0x04
  | .contextFinalized => 0x05
  | .badCommand => 0x10
  | .badContext => 0x11
  | .bufferRange => 0x12

/-- A flag in its bit of a word. -/
def flagBit (b : Bool) (i : Nat) : Word := BitVec.ofNat 32 b.toNat <<< i

/-- `STATUS` as the host reads it (R34). -/
def StatusReg.word (st : StatusReg) : Word :=
  flagBit st.busy 0 ||| flagBit st.done 1 ||| flagBit st.overrun 2 ||| (st.err.toByte.setWidth 32 <<< 8)

/-- A host write of `w` to `STATUS` changes only `OVERRUN`, and only by clearing it (R34). -/
def StatusReg.hostWrite (st : StatusReg) (w : Word) : StatusReg :=
  if w.getLsbD 2 then { st with overrun := false } else st

/-- `STATUS` after an accepted `CMD` write (R35). -/
def StatusReg.accepted (st : StatusReg) : StatusReg := { st with busy := true, done := false, err := .ok }

/-- `STATUS` after a command completes with `code` (R37). -/
def StatusReg.completed (st : StatusReg) (code : StatusCode) : StatusReg :=
  { st with busy := false, done := true, err := code }

/-- `HWCFG` (R40). -/
def hwcfgWord (hw : HwConfig) : Word :=
  BitVec.ofNat 32 hw.nctx ||| BitVec.ofNat 32 hw.nhash <<< 8 ||| BitVec.ofNat 32 (hw.dbufBytes / 16) <<< 16

end Sys2Proof.Machine
end

