-- ==== Sys2Proof/Machine/Operands.lean ====
section
/-! DEFINITION. A command's operands (30_encoding.md rule R106): the latched arguments, byte strings in DBUF
(20_memory.md rules R78, R79) and slots (40_mode_engine.md rule R131, 41_hmac_engine.md rule R181). -/

namespace Sys2Proof.Machine

/-- `CMDL.arg[0]` as an unsigned integer: the input or key offset (R106). -/
def State.op0 (s : State) : Nat := s.cmdl.args.arg0.toNat

/-- `CMDL.arg[1]`: the input or key length (R106). -/
def State.op1 (s : State) : Nat := s.cmdl.args.arg1.toNat

/-- `CMDL.arg[2]`: the output or IV offset (R106). -/
def State.op2 (s : State) : Nat := s.cmdl.args.arg2.toNat

/-- `CMDL.arg[3]`: the IV length (R106). -/
def State.op3 (s : State) : Nat := s.cmdl.args.arg3.toNat

/-- The range check of the region `(off, n)`, without wrap-around (R79). -/
def State.validRegion (s : State) (off n : Nat) : Bool := n == 0 || off + n ≤ s.hw.dbufBytes

/-- `DBUF[off]` (R71): the byte written there, or the free value of an unwritten byte (R72, log 3). -/
def State.byteAt (s : State) (off : Nat) : Byte := (s.dbuf.lookup off).getD (Config.powerOnByte s.draws off)

/-- `MemRead(off, n)` (R16, R78). -/
def State.memRead (s : State) (off n : Nat) : Bytes := (List.range n).map fun i => s.byteAt (off + i)

/-- Slot `c` exists (R43). -/
def State.hasSlot (s : State) (c : Nat) : Bool := c < s.hw.nctx

/-- `slot[c]`. Only asked for a slot that exists; outside the file it is the cleared value (log 10). -/
def State.slot (s : State) (c : Nat) : Slot := s.slots.getD c Slot.cleared

/-- Why a command may not use its slot, or the slot. -/
inductive SlotChoice where
  | raised (code : StatusCode)
  | slot (sl : Slot)
deriving DecidableEq, Repr

/-- The slot of an operation that needs a context of kind `k` not yet finalized (R131, R181). -/
def State.contextOf (s : State) (k : Kind) (c : Nat) : SlotChoice :=
  if !s.hasSlot c || (s.slot c).kind ≠ k then .raised .badContext
  else if (s.slot c).st = .finalized then .raised .contextFinalized
  else .slot (s.slot c)

/-- `ModeSlot(c)` (R131). -/
def State.modeSlot (s : State) (c : Nat) : SlotChoice := s.contextOf .mode c

/-- `HmacSlot(c)` (R181). -/
def State.hmacSlot (s : State) (c : Nat) : SlotChoice := s.contextOf .hmac c

/-- Slot `c` may receive a new context: it exists and is FREE (R140, R184, R187). -/
def State.slotFree (s : State) (c : Nat) : Bool := s.hasSlot c && (s.slot c).st == .free

/-- The slot file with `slot[c] <- sl`. -/
def State.slotsWith (s : State) (c : Nat) (sl : Slot) : List Slot := s.slots.set c sl

/-- The cipher that an `ALG` field names (R102), none for a reserved value. -/
def algOfField : AlgField → Option Alg
  | .aes => some .aes
  | .tdes => some .tdes
  | .reserved2 => none
  | .reserved3 => none

end Sys2Proof.Machine
end

