-- ==== Sys2Proof/Machine/Ops.lean ====
section
/-! DEFINITION. The shared operations: accepting a command (10_state.md rule R35), how a command ends (R16, R37),
ending it with an error (60_exceptions.md rule R224: MOCE's only exception), and reset (R250). -/

namespace Sys2Proof.Machine

/-- How a command's rule ends: `raise Err(code)`, or `done(n)` with its whole effect, the new slot file and the byte
string written at an offset of DBUF (R16, R17, R81). -/
inductive Completion where
  | raised (code : StatusCode)
  | done (n : Nat) (slots : List Slot) (outOff : Nat) (out : Bytes)
deriving DecidableEq, Repr

/-- An accepted `CMD` write of `w` (R35): the word and all four arguments are latched. -/
def State.acceptCmd (s : State) (w : Word) : State :=
  { s with
    cmdl := { word := w, args := s.args }
    status := s.status.accepted
    resultLen := 0
    phase := .busy }

/-- Completion with `code` and result length `n` (R37). -/
def State.complete (s : State) (code : StatusCode) (n : Nat) : State :=
  { s with status := s.status.completed code, resultLen := BitVec.ofNat 32 n, phase := .idle }

/-- `raise Err(code)`, taking MOCE's exception: no slot and no byte of DBUF changes, and R37 is performed with result
length 0 (R224). Nothing is saved and no control is transferred (R225); there is no return: the next accepted `CMD`
write clears the code (R226). -/
def State.raise (s : State) (code : StatusCode) : State := s.complete code 0

/-- The state after a command (R17, R37): its slots and output land together with the completion. -/
def State.finish (s : State) : Completion → State
  | .raised code => s.raise code
  | .done n slots outOff out =>
    { s with slots := slots, dbuf := s.dbuf.storeBytes outOff out }.complete .ok n

/-- The reset input (R250, R251): every piece of state takes its reset value, whatever was running; DBUF holds a new
draw of unspecified bytes. What the host still has to do and what it has been answered are not MOCE's state. -/
def State.resetInput (s : State) : State :=
  { State.resetWith s.hw (s.draws + 1) with moves := s.moves, responses := s.responses }

end Sys2Proof.Machine
end

