-- ==== Sys2Proof/Machine/Bus.lean ====
section
/-! DEFINITION. What a host access does (20_memory.md rules R70, R73 to R77; 10_state.md rules R33 to R38). -/

namespace Sys2Proof.Machine

/-- The registers of the window (R33). -/
inductive RegName where
  | cmd
  | status
  | arg0
  | arg1
  | arg2
  | arg3
  | resultLen
  | hwcfg
deriving DecidableEq, Repr

/-- The register at a byte offset of the window, none where R33 places none. -/
def regAt (off : Nat) : Option RegName :=
  if off = 0x000 then some .cmd
  else if off = 0x004 then some .status
  else if off = 0x008 then some .arg0
  else if off = 0x00C then some .arg1
  else if off = 0x010 then some .arg2
  else if off = 0x014 then some .arg3
  else if off = 0x018 then some .resultLen
  else if off = 0x01C then some .hwcfg
  else none

/-- Where an access lands if it completes. -/
inductive Target where
  | reg (r : RegName)
  | buffer (off : Nat)
  | busError
deriving DecidableEq, Repr

/-- The window offset at which the data buffer begins (R70). -/
def dbufWindow : Nat := 0x1000

/-- The target of an access of `width` bytes at host address `addr`: a register by an aligned 4-byte access (R74); DBUF
by a naturally aligned access of 1, 2 or 4 bytes inside it while `BUSY = 0` (R76, R77); else a bus error (R75). An
address outside the window is a bus error too (log 8). -/
def State.target (s : State) (addr width : Nat) : Target :=
  if addr < s.hw.base then .busError
  else
    let off := addr - s.hw.base
    if off < dbufWindow then
      match regAt off with
      | some r => if width = 4 then .reg r else .busError
      | none => .busError
    else if (width = 1 || width = 2 || width = 4) && (off - dbufWindow) % width == 0 &&
        off - dbufWindow + width ≤ s.hw.dbufBytes && !s.status.busy then
      .buffer (off - dbufWindow)
    else .busError

/-- The value a register read returns (R33, R34, R39, R40); no read has a side effect (R82). -/
def State.readReg (s : State) : RegName → Word
  | .cmd => 0
  | .status => s.status.word
  | .arg0 => s.args.arg0
  | .arg1 => s.args.arg1
  | .arg2 => s.args.arg2
  | .arg3 => s.args.arg3
  | .resultLen => s.resultLen
  | .hwcfg => hwcfgWord s.hw

/-- A host write of `w` to `CMD`: accepted while `BUSY = 0` (R35), dropped with `OVERRUN` set while `BUSY = 1`
(R36). -/
def State.writeCmd (s : State) (w : Word) : State :=
  if s.status.busy then { s with status := { s.status with overrun := true } } else s.acceptCmd w

/-- A host write to a register (R33 to R38); a write to a read-only register is ignored. -/
def State.writeReg (s : State) (r : RegName) (w : Word) : State :=
  match r with
  | .cmd => s.writeCmd w
  | .status => { s with status := s.status.hostWrite w }
  | .arg0 => { s with args := { s.args with arg0 := w } }
  | .arg1 => { s with args := { s.args with arg1 := w } }
  | .arg2 => { s with args := { s.args with arg2 := w } }
  | .arg3 => { s with args := { s.args with arg3 := w } }
  | .resultLen => s
  | .hwcfg => s

/-- Byte lane `i` of a word: bits `8i+7 : 8i` (R76). -/
def lane (v : Word) (i : Nat) : Byte := v.extractLsb' (8 * i) 8

/-- The bytes of a write of `width` bytes, lowest offset first (R76). -/
def lanesOf (v : Word) (width : Nat) : Bytes := (List.range width).map (lane v)

/-- The word that byte lanes make, the first byte least significant (R76). -/
def wordOf : Bytes → Word
  | [] => 0
  | b :: bs => b.setWidth 32 ||| wordOf bs <<< 8

/-- One host access: the state after it and the bus's answer (R73). A bus error has no effect. -/
def State.access (s : State) : Access → State × Response
  | .read addr width =>
    match s.target addr width with
    | .reg r => (s, .data (s.readReg r))
    | .buffer off => (s, .data (wordOf (s.memRead off width)))
    | .busError => (s, .busError)
  | .write addr width v =>
    match s.target addr width with
    | .reg r => (s.writeReg r v, .written)
    | .buffer off => ({ s with dbuf := s.dbuf.storeBytes off (lanesOf v width) }, .written)
    | .busError => (s, .busError)

/-- A host move: the access, and its answer added to what the host has been answered (R258). -/
def State.hostMove (s : State) (a : Access) : State :=
  { (s.access a).1 with responses := s.responses ++ [(s.access a).2] }

end Sys2Proof.Machine
end

