-- ==== Sys2Proof/Machine/ContextControl.lean ====
section
/-! DEFINITION. The commands `nop` and `ctx.release` (42_context_control.md rules R210, R211). -/

namespace Sys2Proof.Machine

/-- `nop` (R210): `done(0)`. -/
def nop (s : State) : Completion := .done 0 s.slots 0 []

/-- `CtxRelease(c)` (R211). -/
def ctxRelease (c : Nat) (s : State) : Completion :=
  if !s.hasSlot c then .raised .badContext else .done 0 (s.slotsWith c Slot.cleared) 0 []

/-- `nop` (R210). -/
def execNop (s : State) : Host.Outcome State Fault Refusal := .next (s.finish (nop s))

/-- `ctx.release` (R211). -/
def execCtxRelease (c : Nat) (s : State) : Host.Outcome State Fault Refusal := .next (s.finish (ctxRelease c s))

end Sys2Proof.Machine
end

