-- ==== Sys2Proof/Machine/HmacEngine.lean ====
section
/-! DEFINITION. The commands `hmac.init`, `hmac.update`, `hmac.final`, `hmac.copy` (41_hmac_engine.md rules R181 to
R187). -/

namespace Sys2Proof.Machine

/-- `K0(h, key)`, the normalised key (R182). -/
def hmacKey (P : Primitives) (h : Nat) (key : Bytes) : Bytes :=
  let k := if P.hashBlock h < key.length then P.hash h key else key
  k ++ zeros (P.hashBlock h - k.length)

/-- `IPAD(h, key)` (R183). -/
def hmacIpad (P : Primitives) (h : Nat) (key : Bytes) : Bytes :=
  xorBytes (hmacKey P h key) (rep 0x36 (P.hashBlock h))

/-- `OPAD(h, key)` (R183). -/
def hmacOpad (P : Primitives) (h : Nat) (key : Bytes) : Bytes :=
  xorBytes (hmacKey P h key) (rep 0x5c (P.hashBlock h))

/-- The slot of a new HMAC context (R184). -/
def Slot.openHmac (P : Primitives) (h : Nat) (key : Bytes) : Slot :=
  { Slot.cleared with
    st := .active, kind := .hmac, hash := h
    ipad := padTo hbmax (hmacIpad P h key)
    opad := padTo hbmax (hmacOpad P h key)
    hs := some (P.hashUpdate h (P.hashInit h) (hmacIpad P h key)) }

/-- `s.HS`. An ACTIVE HMAC slot always has one; for ⊥, which no run reaches there, a fresh state (log 10). -/
def Slot.hashState (P : Primitives) (sl : Slot) : HState := sl.hs.getD (P.hashInit sl.hash)

/-- What `hmac.update` does to its slot with input `data` (R185). -/
def Slot.feed (P : Primitives) (sl : Slot) (data : Bytes) : Slot :=
  { sl with hs := some (P.hashUpdate sl.hash (sl.hashState P) data) }

/-- The digest that `hmac.final` writes (R186): the inner digest, then a fresh outer hash of `OPAD ++ inner`. -/
def Slot.digest (P : Primitives) (sl : Slot) : Bytes :=
  P.hash sl.hash (sl.opad.take (P.hashBlock sl.hash) ++ P.hashFinal sl.hash (sl.hashState P))

/-- `HmacInit(c, h)` (R184). -/
def hmacInit (P : Primitives) (c h : Nat) (s : State) : Completion :=
  if !s.slotFree c then .raised .badContext
  else if s.hw.nhash ≤ h then .raised .unsupportedMode
  else if !s.validRegion s.op0 s.op1 then .raised .bufferRange
  else .done 0 (s.slotsWith c (Slot.openHmac P h (s.memRead s.op0 s.op1))) 0 []

/-- `HmacUpdate(c)` (R185). -/
def hmacUpdate (P : Primitives) (c : Nat) (s : State) : Completion :=
  match s.hmacSlot c with
  | .raised code => .raised code
  | .slot sl =>
    if !s.validRegion s.op0 s.op1 then .raised .bufferRange
    else .done 0 (s.slotsWith c (sl.feed P (s.memRead s.op0 s.op1))) 0 []

/-- `HmacFinal(c)` (R186). -/
def hmacFinal (P : Primitives) (c : Nat) (s : State) : Completion :=
  match s.hmacSlot c with
  | .raised code => .raised code
  | .slot sl =>
    if !s.validRegion s.op2 (P.hashDigest sl.hash) then .raised .bufferRange
    else
      .done (P.hashDigest sl.hash) (s.slotsWith c { sl.secretCleared with st := .finalized }) s.op2 (sl.digest P)

/-- `HmacCopy(c, c2)` (R187). -/
def hmacCopy (c c2 : Nat) (s : State) : Completion :=
  match s.hmacSlot c with
  | .raised code => .raised code
  | .slot sl =>
    if c2 = c || !s.slotFree c2 then .raised .badContext
    else .done 0 (s.slotsWith c2 sl) 0 []

/-- `hmac.init` (R184). -/
def execHmacInit (c h : Nat) (s : State) : Host.Outcome State Fault Refusal :=
  .next (s.finish (hmacInit Config.primitives c h s))

/-- `hmac.update` (R185). -/
def execHmacUpdate (c : Nat) (s : State) : Host.Outcome State Fault Refusal :=
  .next (s.finish (hmacUpdate Config.primitives c s))

/-- `hmac.final` (R186). -/
def execHmacFinal (c : Nat) (s : State) : Host.Outcome State Fault Refusal :=
  .next (s.finish (hmacFinal Config.primitives c s))

/-- `hmac.copy` (R187). -/
def execHmacCopy (c c2 : Nat) (s : State) : Host.Outcome State Fault Refusal :=
  .next (s.finish (hmacCopy c c2 s))

end Sys2Proof.Machine
end

