-- ==== Sys2Proof/Machine/BlockStep.lean ====
section
/-! DEFINITION. The per-mode block step (40_mode_engine.md rules R132 to R138), the block loop of `mode.update`
(R141) and the final partial block (R139), over one slot. -/

namespace Sys2Proof.Machine

/-- ECB (R132). -/
def stepEcb (E D : Bytes → Bytes) (d : Dir) (R x : Bytes) : Bytes × Bytes :=
  match d with
  | .enc => (E x, R)
  | .dec => (D x, R)

/-- CBC (R133, R134). -/
def stepCbc (E D : Bytes → Bytes) (d : Dir) (R x : Bytes) : Bytes × Bytes :=
  match d with
  | .enc => (E (xorBytes x R), E (xorBytes x R))
  | .dec => (xorBytes (D x) R, x)

/-- CFB (R135, R136): the next register is the ciphertext block; decryption uses `E`. -/
def stepCfb (E : Bytes → Bytes) (d : Dir) (R x : Bytes) : Bytes × Bytes :=
  match d with
  | .enc => (xorBytes x (E R), xorBytes x (E R))
  | .dec => (xorBytes x (E R), x)

/-- OFB, either direction (R137): the next register is the keystream block. -/
def stepOfb (E : Bytes → Bytes) (R x : Bytes) : Bytes × Bytes := (xorBytes x (E R), E R)

/-- `Step(s, R, x)` for the slot's mode and direction (R138). -/
def blockStep (E D : Bytes → Bytes) (m : Mode) (d : Dir) (R x : Bytes) : Bytes × Bytes :=
  match m with
  | .ecb => stepEcb E D d R x
  | .cbc => stepCbc E D d R x
  | .cfb => stepCfb E d R x
  | .ofb => stepOfb E R x

/-- The loop of R141 over `n` whole blocks of length `B` from the front of `stream`: the output, the last register
value, and the rest of the stream. -/
def runBlocks (step : Bytes → Bytes → Bytes × Bytes) (B : Nat) : Nat → Bytes → Bytes → Bytes × Bytes × Bytes
  | 0, R, stream => ([], R, stream)
  | n + 1, R, stream =>
    let (o, R') := step R (stream.take B)
    let (out, R'', rest) := runBlocks step B n R' (stream.drop B)
    (o ++ out, R'', rest)

/-- `E(t)` of a slot (R130, R46). -/
def Slot.enc (P : Primitives) (sl : Slot) : Bytes → Bytes := P.encrypt sl.alg sl.key

/-- `D(t)` of a slot (R130, R46). -/
def Slot.dec (P : Primitives) (sl : Slot) : Bytes → Bytes := P.decrypt sl.alg sl.key

/-- `Step(s, R, x)` of a slot (R138). -/
def Slot.step (P : Primitives) (sl : Slot) : Bytes → Bytes → Bytes × Bytes :=
  blockStep (sl.enc P) (sl.dec P) sl.mode sl.dir

/-- How many whole blocks `len` more input bytes complete: `floor((NB + len) / B)` (R141 `nfull`). -/
def Slot.fullBlocks (sl : Slot) (len : Nat) : Nat := (sl.nb + len) / sl.blockLen

/-- What `mode.update` does to its slot with input `data`, and the bytes it outputs (R141). -/
def Slot.absorb (P : Primitives) (sl : Slot) (data : Bytes) : Slot × Bytes :=
  let (out, R, rest) := runBlocks (sl.step P) sl.blockLen (sl.fullBlocks data.length) sl.reg (sl.bbuf ++ data)
  ({ sl.withReg R with bbuf := rest }, out)

/-- `Tail(s)`, the final partial block of CFB and OFB (R139): the leading keystream bytes; the register is not
advanced. -/
def Slot.tail (P : Primitives) (sl : Slot) : Bytes := xorBytes sl.bbuf ((sl.enc P sl.reg).take sl.nb)

/-- The output of a successful `mode.final` (R142). -/
def Slot.finalOutput (P : Primitives) (sl : Slot) : Bytes :=
  match sl.mode with
  | .ecb => []
  | .cbc => []
  | .cfb => sl.tail P
  | .ofb => sl.tail P

/-- The slot of a new mode context (R140). -/
def Slot.openMode (alg : Alg) (m : Mode) (d : Dir) (key iv : Bytes) : Slot :=
  { Slot.cleared with st := .active, kind := .mode, alg := alg, mode := m, dir := d, key := key, r := padTo bmax iv }

end Sys2Proof.Machine
end

