-- ==== Sys2Proof/Machine/ModeEngine.lean ====
section
/-! DEFINITION. The commands `mode.init`, `mode.update`, `mode.final` (40_mode_engine.md rules R140 to R142). -/

namespace Sys2Proof.Machine

/-- ECB and CBC: the modes whose total input must be whole blocks (R142). -/
def wholeBlock : Mode → Bool
  | .ecb => true
  | .cbc => true
  | .cfb => false
  | .ofb => false

/-- The initial register value: the IV region, or zeros for ECB, which has no IV (R140). -/
def State.initialReg (s : State) (alg : Alg) (m : Mode) : Bytes :=
  if m = .ecb then zeros (blockBytes alg) else s.memRead s.op2 (blockBytes alg)

/-- `ModeInit` of R140 from its third check on, for a cipher that exists. -/
def modeInitWith (c : Nat) (alg : Alg) (m : Mode) (d : Dir) (ivp : Bool) (s : State) : Completion :=
  if !s.validRegion s.op0 s.op1 then .raised .bufferRange
  else if ivp && !s.validRegion s.op2 s.op3 then .raised .bufferRange
  else if !(keyLens alg).contains s.op1 then .raised .invalidKeyLength
  else if m = .ecb && ivp then .raised .unsupportedMode
  else if m ≠ .ecb && (!ivp || s.op3 ≠ blockBytes alg) then .raised .invalidIVLength
  else .done 0 (s.slotsWith c (Slot.openMode alg m d (s.memRead s.op0 s.op1) (s.initialReg alg m))) 0 []

/-- `ModeInit(c, a, m, r, v)` (R140). -/
def modeInit (c : Nat) (a : AlgField) (m : Mode) (d : Dir) (ivp : Bool) (s : State) : Completion :=
  if !s.slotFree c then .raised .badContext
  else
    match algOfField a with
    | none => .raised .unsupportedMode
    | some alg => modeInitWith c alg m d ivp s

/-- `ModeUpdate(c)` (R141). -/
def modeUpdate (P : Primitives) (c : Nat) (s : State) : Completion :=
  match s.modeSlot c with
  | .raised code => .raised code
  | .slot sl =>
    if !s.validRegion s.op0 s.op1 then .raised .bufferRange
    else if !s.validRegion s.op2 (sl.fullBlocks s.op1 * sl.blockLen) then .raised .bufferRange
    else
      .done (sl.fullBlocks s.op1 * sl.blockLen) (s.slotsWith c (sl.absorb P (s.memRead s.op0 s.op1)).1) s.op2
        (sl.absorb P (s.memRead s.op0 s.op1)).2

/-- `ModeFinal(c)` (R142). -/
def modeFinal (P : Primitives) (c : Nat) (s : State) : Completion :=
  match s.modeSlot c with
  | .raised code => .raised code
  | .slot sl =>
    if wholeBlock sl.mode && sl.nb != 0 then .raised .invalidBlockLength
    else if !s.validRegion s.op2 (sl.finalOutput P).length then .raised .bufferRange
    else
      .done (sl.finalOutput P).length (s.slotsWith c { sl.secretCleared with st := .finalized }) s.op2
        (sl.finalOutput P)

/-- `mode.init` (R140). -/
def execModeInit (c : Nat) (a : AlgField) (m : Mode) (d : Dir) (ivp : Bool) (s : State) :
    Host.Outcome State Fault Refusal :=
  .next (s.finish (modeInit c a m d ivp s))

/-- `mode.update` (R141). -/
def execModeUpdate (c : Nat) (s : State) : Host.Outcome State Fault Refusal :=
  .next (s.finish (modeUpdate Config.primitives c s))

/-- `mode.final` (R142). -/
def execModeFinal (c : Nat) (s : State) : Host.Outcome State Fault Refusal :=
  .next (s.finish (modeFinal Config.primitives c s))

end Sys2Proof.Machine
end

