-- ==== Sys2Proof/Machine/Dispatch.lean ====
section
/-! DEFINITION. The engine's dispatch (30_encoding.md rule R103): one arm per command. -/

namespace Sys2Proof.Machine

def exec (i : Instr) (s : State) : Host.Outcome State Fault Refusal :=
  match i with
  | .nop => Sys2Proof.Machine.execNop s
  | .modeInit c a m d v => Sys2Proof.Machine.execModeInit c a m d v s
  | .modeUpdate c => Sys2Proof.Machine.execModeUpdate c s
  | .modeFinal c => Sys2Proof.Machine.execModeFinal c s
  | .hmacInit c h => Sys2Proof.Machine.execHmacInit c h s
  | .hmacUpdate c => Sys2Proof.Machine.execHmacUpdate c s
  | .hmacFinal c => Sys2Proof.Machine.execHmacFinal c s
  | .hmacCopy c c2 => Sys2Proof.Machine.execHmacCopy c c2 s
  | .ctxRelease c => Sys2Proof.Machine.execCtxRelease c s

end Sys2Proof.Machine
end

