-- ==== Sys2Proof/Machine/Turn.lean ====
section
/-! DEFINITION. Who moves and what a move does (10_state.md rule R42, 20_memory.md rule R83). -/

namespace Sys2Proof.Machine

/-- The engine's step in phase BUSY (R42, R100): execute `CMDL` to completion. A word that is no command ends with
`BadCommand` (R105). -/
def runCommand (s : State) : Host.Outcome State Fault Refusal :=
  match decode s.cmdl.word with
  | .instr i => exec i s
  | .reject _ => .next (s.raise .badCommand)

/-- The engine's turn: in phase IDLE it has no step, and the turn changes nothing (R42, log 4). -/
def engineTurn (s : State) : Host.Outcome State Fault Refusal :=
  match s.phase with
  | .busy => runCommand s
  | .idle => .next s

/-- One move. -/
def performMove (m : Move) (s : State) : Host.Outcome State Fault Refusal :=
  match m with
  | .host a => .next (s.hostMove a)
  | .engine => engineTurn s
  | .reset => .next s.resetInput

/-- The next step of the machine: the first of the moves to come; where none is left, the engine's turn, so that
every accepted command completes (R42). -/
def advance (s : State) : Host.Outcome State Fault Refusal :=
  match s.moves with
  | [] => engineTurn s
  | m :: rest => performMove m { s with moves := rest }

/-- The state in which the very next step executes the command word `w`: an accepted `CMD` write of it (R35), and the
engine to move next. -/
def State.commandNext (s : State) (w : Word) : State := { s.acceptCmd w with moves := .engine :: s.moves }

end Sys2Proof.Machine
end

