-- ==== Sys2Proof/Machine/Step.lean ====
section
/-! DEFINITION. The machine's step. -/

namespace Sys2Proof.Machine

/-- One step: the move that the state says comes next (Turn.lean). -/
def step (s : State) : Host.Outcome State Fault Refusal := advance s

/-- `s` with the opcode table's word `w` as the command that the very next step runs (log 1). -/
def State.withFetchWord (s : State) (nbits w : Nat) : State := s.commandNext (tableWord nbits w)

end Sys2Proof.Machine
end

