-- ==== Sys2Proof/Machine/HostProgram.lean ====
section
/-! DEFINITION. Host programs (30_encoding.md rule R108): each host line as the moves it expands to. A program is a
list of moves, which the host agent holds in `State.moves`. -/

namespace Sys2Proof.Machine

/-- `wr OFF, V`: one 4-byte write at register offset `OFF`. -/
def hostWr (base off : Nat) (v : Word) : List Move := [.host (.write (base + off) 4 v)]

/-- `rd OFF`: one 4-byte read at register offset `OFF`. -/
def hostRd (base off : Nat) : List Move := [.host (.read (base + off) 4)]

/-- `sb DOFF, V`: one 1-byte write at window offset `0x1000 + DOFF`. -/
def hostSb (base doff : Nat) (v : Byte) : List Move :=
  [.host (.write (base + dbufWindow + doff) 1 (v.setWidth 32))]

/-- `wrb DOFF, b0 .. bk-1`. -/
def hostWrb (base : Nat) : Nat → Bytes → List Move
  | _, [] => []
  | doff, b :: bs => hostSb base doff b ++ hostWrb base (doff + 1) bs

/-- `rdb DOFF, n`: `n` 1-byte reads. -/
def hostRdb (base doff n : Nat) : List Move :=
  (List.range n).map fun i => .host (.read (base + dbufWindow + doff + i) 1)

/-- `args a0, a1, a2, a3`. -/
def hostArgs (base : Nat) (a0 a1 a2 a3 : Word) : List Move :=
  hostWr base 0x008 a0 ++ hostWr base 0x00C a1 ++ hostWr base 0x010 a2 ++ hostWr base 0x014 a3

/-- `cmd MNEMONIC`: a write of the mnemonic's word (R107) to `CMD`. -/
def hostCmd (base : Nat) (i : Instr) : List Move := hostWr base 0x000 (encode i)

/-- `poll`, in the schedule where the engine completes after `k` reads that still see `BUSY = 1`: those reads, the
engine's step, and the read that sees `BUSY = 0`. -/
def hostPoll (base k : Nat) : List Move :=
  (List.range k).flatMap (fun _ => hostRd base 0x004) ++ [.engine] ++ hostRd base 0x004

/-- `run MNEMONIC`: `cmd` and `poll`, in the schedule of `hostPoll`. -/
def hostRun (base k : Nat) (i : Instr) : List Move := hostCmd base i ++ hostPoll base k

end Sys2Proof.Machine
end

