-- ==== Sys2Proof/Safety.lean ====
section
/-! DEFINITION. What a good state is (10_state.md rules R9, R42 to R49) and the terms the claims use. -/

namespace Sys2Proof.Machine

/-- What holds of every context slot: its registers have their widths and hold zeros past their meaningful bytes (R9,
R47); `kind = NONE` exactly when FREE (R44); a FREE slot is cleared (R48) and a FINALIZED one holds no secret (R49);
an ACTIVE context has the field values of R45 or R47. -/
structure Slot.Good (P : Primitives) (hw : HwConfig) (sl : Slot) : Prop where
  rWidth : sl.r.length = bmax
  ipadWidth : sl.ipad.length = hbmax
  opadWidth : sl.opad.length = hbmax
  kindNone : sl.kind = .none ↔ sl.st = .free
  freeCleared : sl.st = .free → sl = Slot.cleared
  finalizedCleared : sl.st = .finalized → sl.secretCleared = sl
  modeKey : sl.kind = .mode → sl.st = .active → sl.key.length ∈ keyLens sl.alg
  modeBuffer : sl.kind = .mode → sl.nb < sl.blockLen
  modeReg : sl.kind = .mode → padTo bmax sl.reg = sl.r
  modeEcb : sl.kind = .mode → sl.mode = .ecb → sl.r = zeros bmax
  modeOnly : sl.kind = .mode → sl.hash = 0 ∧ sl.ipad = zeros hbmax ∧ sl.opad = zeros hbmax ∧ sl.hs = none
  hmacHash : sl.kind = .hmac → sl.hash < hw.nhash
  hmacState : sl.kind = .hmac → sl.st = .active → sl.hs.isSome = true
  hmacPads : sl.kind = .hmac →
    padTo hbmax (sl.ipad.take (P.hashBlock sl.hash)) = sl.ipad ∧ padTo hbmax (sl.opad.take (P.hashBlock sl.hash)) = sl.opad
  hmacOnly : sl.kind = .hmac → sl.key = [] ∧ sl.r = zeros bmax ∧ sl.bbuf = []

/-- The invariant of the machine, for the primitives `P`. -/
structure State.Inv (P : Primitives) (s : State) : Prop where
  hwLegal : s.hw.legal = true
  slotCount : s.slots.length = s.hw.nctx
  slotsGood : ∀ sl ∈ s.slots, sl.Good P s.hw
  busyPhase : s.status.busy = true ↔ s.phase = .busy
  busyNotDone : s.status.busy = true → s.status.done = false
  notDone : s.status.done = false → s.status.err = .ok ∧ s.resultLen = 0
  errNoResult : s.status.err ≠ .ok → s.resultLen = 0
  resultFits : s.resultLen.toNat ≤ s.hw.dbufBytes
  dbufCanonical : s.dbuf.wf = true
  dbufInside : s.dbuf.below s.hw.dbufBytes = true

/-- A good state of this MOCE. -/
def State.Safe (s : State) : Prop := s.Inv Config.primitives

/-- From `s` to `t`, DBUF changes to the bytes `out` at `off` and nowhere else, as read byte by byte (R16, R81). -/
def WritesExactly (s t : State) (off : Nat) (out : Bytes) : Prop :=
  (∀ a, a < off ∨ off + out.length ≤ a → t.byteAt a = s.byteAt a) ∧
    ∀ i, i < out.length → t.byteAt (off + i) = out.getD i 0

/-- Every byte of DBUF reads as before. -/
def DbufUnchanged (s t : State) : Prop := ∀ a, t.byteAt a = s.byteAt a

/-- What every command leaves alone: the argument registers, the latch, the parameters, `OVERRUN`, and the model's own
fields (R31, R36, R41). -/
def CommandFrame (s t : State) : Prop :=
  t.args = s.args ∧ t.cmdl = s.cmdl ∧ t.hw = s.hw ∧ t.status.overrun = s.status.overrun ∧
    t.draws = s.draws ∧ t.moves = s.moves ∧ t.responses = s.responses

/-- The state after a command that ends with the error `code`: R37 with `RESULT_LEN` 0, and nothing else (R224). -/
def State.afterError (s : State) (code : StatusCode) : State :=
  { s with
    status := { busy := false, done := true, overrun := s.status.overrun, err := code }
    resultLen := 0
    phase := .idle }

/-- The state after a command that ends with OK, result length `n` and the slot file `slots`, and writes nothing to
DBUF (R37). -/
def State.afterOk (s : State) (n : Nat) (slots : List Slot) : State :=
  { s with
    status := { busy := false, done := true, overrun := s.status.overrun, err := .ok }
    resultLen := BitVec.ofNat 32 n
    phase := .idle
    slots := slots }

/-- From `s` to `t`: `State.afterOk` and the bytes `out` written to DBUF at `off`. -/
def EndsOkWriting (s t : State) (n : Nat) (slots : List Slot) (off : Nat) (out : Bytes) : Prop :=
  { t with dbuf := s.dbuf } = s.afterOk n slots ∧ WritesExactly s t off out

/-- Slot `c` holds an ACTIVE context of kind `k` (R44). -/
def State.HasActive (s : State) (k : Kind) (c : Nat) : Prop :=
  c < s.hw.nctx ∧ (s.slot c).kind = k ∧ (s.slot c).st = .active

/-- Slot `c` exists and is FREE (R44). -/
def State.HasFree (s : State) (c : Nat) : Prop := c < s.hw.nctx ∧ (s.slot c).st = .free

/-- The region passes the range check (R79). -/
def State.InRange (s : State) (off n : Nat) : Prop := n = 0 ∨ off + n ≤ s.hw.dbufBytes

/-- The slot a command may write, if any (R43). -/
def writtenSlot : Instr → Option Nat
  | .nop => none
  | .modeInit c _ _ _ _ => some c
  | .modeUpdate c => some c
  | .modeFinal c => some c
  | .hmacInit c _ => some c
  | .hmacUpdate c => some c
  | .hmacFinal c => some c
  | .hmacCopy _ c2 => some c2
  | .ctxRelease c => some c

/-- The slots a command word names (R43). -/
def namedSlots : Instr → List Nat
  | .nop => []
  | .modeInit c _ _ _ _ => [c]
  | .modeUpdate c => [c]
  | .modeFinal c => [c]
  | .hmacInit c _ => [c]
  | .hmacUpdate c => [c]
  | .hmacFinal c => [c]
  | .hmacCopy c c2 => [c, c2]
  | .ctxRelease c => [c]

/-- The codes a decoded command can end with (R221, less `BadCommand`, which a word that decodes never gives). -/
def possibleCodes : Instr → List StatusCode
  | .nop => [.ok]
  | .modeInit .. =>
    [.ok, .badContext, .unsupportedMode, .bufferRange, .invalidKeyLength, .invalidIVLength]
  | .modeUpdate _ => [.ok, .badContext, .contextFinalized, .bufferRange]
  | .modeFinal _ => [.ok, .badContext, .contextFinalized, .invalidBlockLength, .bufferRange]
  | .hmacInit _ _ => [.ok, .badContext, .unsupportedMode, .bufferRange]
  | .hmacUpdate _ => [.ok, .badContext, .contextFinalized, .bufferRange]
  | .hmacFinal _ => [.ok, .badContext, .contextFinalized, .bufferRange]
  | .hmacCopy _ _ => [.ok, .badContext, .contextFinalized]
  | .ctxRelease _ => [.ok, .badContext]

/-- A mode context fed with several inputs in turn, as by successive `mode.update`s (R143). -/
def Slot.absorbAll (P : Primitives) : Slot → List Bytes → Slot × Bytes
  | sl, [] => (sl, [])
  | sl, d :: ds =>
    let (sl', out) := sl.absorb P d
    let (sl'', outs) := Slot.absorbAll P sl' ds
    (sl'', out ++ outs)

/-- The whole output of a mode context: that of its updates and of a successful `mode.final` (R143). -/
def Slot.output (P : Primitives) (sl : Slot) (chunks : List Bytes) : Bytes :=
  (sl.absorbAll P chunks).2 ++ (sl.absorbAll P chunks).1.finalOutput P

/-- An HMAC context fed with several inputs in turn, as by successive `hmac.update`s (R188). -/
def Slot.feedAll (P : Primitives) (sl : Slot) (chunks : List Bytes) : Slot := chunks.foldl (Slot.feed P) sl

end Sys2Proof.Machine
end

