-- ==== Sys2Proof/Certificates/Slice0/Obligations.lean ====
section
/-! DEFINITION. The statements for the provers. Each docstring names the rule of spec/ it formalises. `P` ranges over
all primitives where a statement is about the algorithms; statements about `exec` and `step` are about the primitives
the platform attached, which are opaque. -/

open Sys2Proof Sys2Proof.Machine

/-! Encoding -/

/-- Command words of 95_test_vectors.md section 3.1 and of the rules' examples decode to the instruction they stand
for. -/
def Obligations.ListedWordsDecode : Prop :=
  decode 0x00000000 = .instr .nop ∧
  decode 0x00250001 = .instr (.modeInit 0 .tdes .cbc .enc true) ∧
  decode 0x00320301 = .instr (.modeInit 3 .aes .cfb .dec true) ∧
  decode 0x00290001 = .instr (.modeInit 0 .reserved2 .cbc .enc true) ∧
  decode 0x00000102 = .instr (.modeUpdate 1) ∧
  decode 0x00000103 = .instr (.modeFinal 1) ∧
  decode 0x01000011 = .instr (.hmacInit 0 1) ∧
  decode 0x00000112 = .instr (.hmacUpdate 1) ∧
  decode 0x00000113 = .instr (.hmacFinal 1) ∧
  decode 0x00008014 = .instr (.hmacCopy 0 8) ∧
  decode 0x00000820 = .instr (.ctxRelease 8)

/-- Every well-formed instruction, with every operand at every value its field admits, decodes from its own word
(R101, R107). -/
def Obligations.DecodeInvertsEncode : Prop :=
  ∀ i : Instr, WellFormed i = true → decode (encode i) = .instr i

/-- A word that decodes is the only word of its instruction, which is well formed: no bit of a command word is
ignored (R101, R104). -/
def Obligations.EncodeInvertsDecode : Prop :=
  ∀ (w : Word) (i : Instr), decode w = .instr i → encode i = w ∧ WellFormed i = true

/-- A word whose `OPC` byte is not one of R103's nine is rejected as unknown; a word of a known opcode is rejected
exactly when a bit outside its `USED_MASK` is set (R100, R104, R105). -/
def Obligations.DecodeRejectsIllegalWords : Prop :=
  ∀ w : Word,
    (w.extractLsb' 0 8 ∉ [0x00#8, 0x01#8, 0x02#8, 0x03#8, 0x11#8, 0x12#8, 0x13#8, 0x14#8, 0x20#8] →
      decode w = .reject .unknownOpcode) ∧
    ∀ o : Opcode, w.extractLsb' 0 8 = o.code →
      (w &&& ~~~usedMask o ≠ 0 → decode w = .reject .reservedBits) ∧
      (w &&& ~~~usedMask o = 0 → ∃ i, decode w = .instr i ∧ opcodeOfInstr i = o)

/-! The step -/

/-- When the engine moves and `CMDL` holds the word of an instruction, the step is that instruction's; and
`withFetchWord` makes the next step so, with the arguments latched (R42, R100; log 1). -/
def Obligations.StepRunsDecodedCommand : Prop :=
  (∀ (s : State) (i : Instr), s.phase = .busy → decode s.cmdl.word = .instr i → s.moves = [] →
    step s = exec i s) ∧
  (∀ (s : State) (i : Instr) (rest : List Move), s.phase = .busy → decode s.cmdl.word = .instr i →
    s.moves = .engine :: rest → step s = exec i { s with moves := rest }) ∧
  (∀ (s : State) (i : Instr) (w : Word), decode w = .instr i →
    step (s.withFetchWord 32 w.toNat) =
      exec i { s with
        cmdl := { word := w, args := s.args }
        status := { busy := true, done := false, overrun := s.status.overrun, err := .ok }
        resultLen := 0
        phase := .busy })

/-- A latched word that decodes to nothing ends with `BadCommand` and no other effect (R100, R105, R224). -/
def Obligations.IllegalWordEndsWithBadCommand : Prop :=
  ∀ (s : State) (e : DecodeError), s.phase = .busy → decode s.cmdl.word = .reject e →
    (s.moves = [] → step s = .next (s.afterError .badCommand)) ∧
    (∀ rest, s.moves = .engine :: rest → step s = .next (State.afterError { s with moves := rest } .badCommand))

/-- In phase IDLE the engine's turn changes nothing (R42; that the turn is a step at all is the model's choice,
log 4). -/
def Obligations.IdleEngineTurnChangesNothing : Prop :=
  ∀ s : State, s.phase = .idle →
    (s.moves = [] → step s = .next s) ∧
    (∀ rest, s.moves = .engine :: rest → step s = .next { s with moves := rest })

/-- No step of MOCE stops the machine: an error is a status code and a bad access a bus error response (R225, R227). -/
def Obligations.EveryStepAnswersNextState : Prop := ∀ s : State, ∃ t, step s = .next t

/-- Whatever the schedule, once the moves to come are spent the engine has completed its command (R42: every BUSY phase
ends). -/
def Obligations.EveryAcceptedCommandCompletes : Prop :=
  ∀ s : State, ∃ t, Host.Core.run Sys2Proof.core (s.moves.length + 1) s = .next t ∧ t.phase = .idle ∧ t.moves = []

/-! The host's accesses -/

/-- A host move is the access, and its answer added to the answers (R83; the list of answers is the model's, log 1). -/
def Obligations.StepPerformsHostAccess : Prop :=
  ∀ (s : State) (a : Access) (rest : List Move), s.moves = .host a :: rest →
    step s = .next { (State.access { s with moves := rest } a).1 with
      responses := s.responses ++ [(State.access { s with moves := rest } a).2] }

/-- R35: a `CMD` write while `BUSY = 0` latches the word and all four arguments and starts the engine, whatever the
word. -/
def Obligations.AcceptedCmdWrite : Prop :=
  ∀ (s : State) (w : Word), s.status.busy = false →
    s.access (.write (s.hw.base + 0x000) 4 w) =
      ({ s with
          cmdl := { word := w, args := s.args }
          status := { busy := true, done := false, overrun := s.status.overrun, err := .ok }
          resultLen := 0
          phase := .busy }, .written)

/-- R36: a `CMD` write while `BUSY = 1` is dropped and sets `OVERRUN`. -/
def Obligations.CmdWriteWhileBusyIsDropped : Prop :=
  ∀ (s : State) (w : Word), s.status.busy = true →
    s.access (.write (s.hw.base + 0x000) 4 w) = ({ s with status := { s.status with overrun := true } }, .written)

/-- A `STATUS` write clears `OVERRUN` when bit 2 is 1 and changes nothing else (R34). -/
def Obligations.StatusWriteClearsOnlyOverrun : Prop :=
  ∀ (s : State) (w : Word),
    s.access (.write (s.hw.base + 0x004) 4 w) =
      ({ s with status := { s.status with overrun := s.status.overrun && !w.getLsbD 2 } }, .written)

/-- An `ARG` write stores, in either phase, and changes nothing else, the latched copy included (R38); a write to
`RESULT_LEN` or `HWCFG` is ignored (R33). -/
def Obligations.ArgAndReadOnlyRegisterWrites : Prop :=
  ∀ (s : State) (w : Word),
    s.access (.write (s.hw.base + 0x008) 4 w) = ({ s with args := { s.args with arg0 := w } }, .written) ∧
    s.access (.write (s.hw.base + 0x00C) 4 w) = ({ s with args := { s.args with arg1 := w } }, .written) ∧
    s.access (.write (s.hw.base + 0x010) 4 w) = ({ s with args := { s.args with arg2 := w } }, .written) ∧
    s.access (.write (s.hw.base + 0x014) 4 w) = ({ s with args := { s.args with arg3 := w } }, .written) ∧
    s.access (.write (s.hw.base + 0x018) 4 w) = (s, .written) ∧
    s.access (.write (s.hw.base + 0x01C) 4 w) = (s, .written)

/-- What a read of each register returns (R33, R34, R39, R40): `CMD` reads 0. -/
def Obligations.RegisterReads : Prop :=
  ∀ s : State,
    s.access (.read (s.hw.base + 0x000) 4) = (s, .data 0) ∧
    s.access (.read (s.hw.base + 0x004) 4) = (s, .data s.status.word) ∧
    s.access (.read (s.hw.base + 0x008) 4) = (s, .data s.args.arg0) ∧
    s.access (.read (s.hw.base + 0x00C) 4) = (s, .data s.args.arg1) ∧
    s.access (.read (s.hw.base + 0x010) 4) = (s, .data s.args.arg2) ∧
    s.access (.read (s.hw.base + 0x014) 4) = (s, .data s.args.arg3) ∧
    s.access (.read (s.hw.base + 0x018) 4) = (s, .data s.resultLen) ∧
    s.access (.read (s.hw.base + 0x01C) 4) = (s, .data (hwcfgWord s.hw))

/-- The bits of the `STATUS` word (R34) with the code numbers of R220; its reserved bits read as 0. -/
def Obligations.StatusWordFields : Prop :=
  ∀ st : StatusReg,
    st.word.getLsbD 0 = st.busy ∧ st.word.getLsbD 1 = st.done ∧ st.word.getLsbD 2 = st.overrun ∧
    st.word.extractLsb' 3 5 = 0#5 ∧ st.word.extractLsb' 16 16 = 0#16 ∧
    st.word.extractLsb' 8 8 =
      match st.err with
      | .ok => 0x00#8
      | .invalidKeyLength => 0x01#8
      | .invalidIVLength => 0x02#8
      | .unsupportedMode => 0x03#8
      | .invalidBlockLength => 0x04#8
      | .contextFinalized => 0x05#8
      | .badCommand => 0x10#8
      | .badContext => 0x11#8
      | .bufferRange => 0x12#8

/-- The fields of `HWCFG` for every legal configuration (R40, R7). -/
def Obligations.HwcfgWordFields : Prop :=
  ∀ hw : HwConfig, hw.legal = true →
    ((hwcfgWord hw).extractLsb' 0 8).toNat = hw.nctx ∧
    ((hwcfgWord hw).extractLsb' 8 8).toNat = hw.nhash ∧
    ((hwcfgWord hw).extractLsb' 16 16).toNat * 16 = hw.dbufBytes

/-- Which accesses end with a bus error, reads and writes alike, and that a bus error has no effect (R73 to R77). The
clause for addresses outside the window is the model's reading (log 8). -/
def Obligations.BusErrorsExactly : Prop :=
  ∀ (s : State) (n : Nat) (v : Word),
    (∀ off, off < 0x1000 →
      ((s.access (.read (s.hw.base + off) n)).2 = .busError ↔ ¬(n = 4 ∧ off % 4 = 0 ∧ off < 0x20)) ∧
      ((s.access (.write (s.hw.base + off) n v)).2 = .busError ↔ ¬(n = 4 ∧ off % 4 = 0 ∧ off < 0x20))) ∧
    (∀ d,
      ((s.access (.read (s.hw.base + 0x1000 + d) n)).2 = .busError ↔
        ¬((n = 1 ∨ n = 2 ∨ n = 4) ∧ d % n = 0 ∧ d + n ≤ s.hw.dbufBytes ∧ s.status.busy = false)) ∧
      ((s.access (.write (s.hw.base + 0x1000 + d) n v)).2 = .busError ↔
        ¬((n = 1 ∨ n = 2 ∨ n = 4) ∧ d % n = 0 ∧ d + n ≤ s.hw.dbufBytes ∧ s.status.busy = false))) ∧
    (∀ addr, addr < s.hw.base →
      (s.access (.read addr n)).2 = .busError ∧ (s.access (.write addr n v)).2 = .busError) ∧
    ∀ a, (s.access a).2 = .busError → (s.access a).1 = s

/-- R77: while `BUSY = 1` every access to DBUF, of any width, ends with a bus error and no effect; an access to the
register window completes or not as it would with `BUSY = 0`. -/
def Obligations.DbufLockedWhileBusy : Prop :=
  ∀ (s : State) (n : Nat) (v : Word), s.status.busy = true →
    (∀ d, d < s.hw.dbufBytes →
      s.access (.read (s.hw.base + 0x1000 + d) n) = (s, .busError) ∧
      s.access (.write (s.hw.base + 0x1000 + d) n v) = (s, .busError)) ∧
    (∀ off, off < 0x1000 →
      ((s.access (.read (s.hw.base + off) n)).2 = .busError ↔
        (State.access { s with status := { s.status with busy := false } } (.read (s.hw.base + off) n)).2 = .busError) ∧
      (s.access (.write (s.hw.base + off) n v)).2 =
        (State.access { s with status := { s.status with busy := false } } (.write (s.hw.base + off) n v)).2)

/-- A DBUF read returns the bytes at its offsets with the first least significant, and changes nothing (R76, R82). -/
def Obligations.DbufReadIsLittleEndian : Prop :=
  ∀ (s : State) (n d : Nat), (n = 1 ∨ n = 2 ∨ n = 4) → d % n = 0 → d + n ≤ s.hw.dbufBytes → s.status.busy = false →
    ∃ v : Word, s.access (.read (s.hw.base + 0x1000 + d) n) = (s, .data v) ∧
      (∀ i, i < n → v.extractLsb' (8 * i) 8 = s.byteAt (d + i)) ∧
      (∀ i, n ≤ i → v.extractLsb' (8 * i) 8 = 0#8)

/-- A DBUF write stores byte lane `i` at offset `d + i` and changes no other byte and no other state (R76). -/
def Obligations.DbufWriteIsLittleEndian : Prop :=
  ∀ (s : State) (n d : Nat) (v : Word), (n = 1 ∨ n = 2 ∨ n = 4) → d % n = 0 → d + n ≤ s.hw.dbufBytes →
    s.status.busy = false →
    ∃ t : State, s.access (.write (s.hw.base + 0x1000 + d) n v) = (t, .written) ∧
      { t with dbuf := s.dbuf } = s ∧
      (∀ i, i < n → t.byteAt (d + i) = v.extractLsb' (8 * i) 8) ∧
      (∀ a, (a < d ∨ d + n ≤ a) → t.byteAt a = s.byteAt a)

/-- R82 (c): a read has no side effect, whatever its address and width. -/
def Obligations.ReadsHaveNoSideEffect : Prop :=
  ∀ (s : State) (addr n : Nat), (s.access (.read addr n)).1 = s

/-- R50: no host access reads or changes a slot: with another slot file it answers the same. -/
def Obligations.HostAccessesNeverSeeSlots : Prop :=
  ∀ (s : State) (slots : List Slot) (a : Access),
    (State.access { s with slots := slots } a).2 = (s.access a).2 ∧
    (State.access { s with slots := slots } a).1 = { (s.access a).1 with slots := slots } ∧
    (s.access a).1.slots = s.slots

/-- R86: a host access while a command runs leaves the latch, the slots and DBUF alone, so the command then ends with
the same slots, DBUF, code and result length as without it. -/
def Obligations.RunningCommandIsUndisturbed : Prop :=
  ∀ (s t u v : State) (a : Access), s.status.busy = true → t = (s.access a).1 →
    engineTurn s = .next u → engineTurn t = .next v →
    (t.cmdl = s.cmdl ∧ t.dbuf = s.dbuf ∧ t.slots = s.slots ∧ t.status.busy = true ∧ t.phase = s.phase) ∧
    (s.phase = .busy →
      v.slots = u.slots ∧ v.dbuf = u.dbuf ∧ v.resultLen = u.resultLen ∧ v.status.err = u.status.err)

/-! The commands: where each completes -/

/-- R210: `nop` completes and changes nothing but `STATUS`, `RESULT_LEN` and the phase. -/
def Obligations.NopCompletes : Prop := ∀ s : State, exec .nop s = .next (s.afterOk 0 s.slots)

/-- R211: `ctx.release` clears its slot, whatever it holds; a slot that does not exist is `BadContext`. -/
def Obligations.CtxReleaseCompletes : Prop :=
  ∀ (c : Nat) (s : State),
    (c < s.hw.nctx → exec (.ctxRelease c) s = .next (s.afterOk 0 (s.slots.set c Slot.cleared))) ∧
    (s.hw.nctx ≤ c → exec (.ctxRelease c) s = .next (s.afterError .badContext))

/-- R140: `mode.init` into a FREE slot, with the key in range and of an accepted length, and an IV of the block length
exactly when the mode takes one, opens the context: key and IV are copied from DBUF, and nothing else changes. -/
def Obligations.ModeInitCompletes : Prop :=
  ∀ (c : Nat) (a : AlgField) (alg : Alg) (m : Mode) (d : Dir) (ivp : Bool) (s : State),
    s.HasFree c → (a = .aes ∧ alg = .aes ∨ a = .tdes ∧ alg = .tdes) → s.InRange s.op0 s.op1 →
    s.op1 ∈ keyLens alg →
    (m = .ecb ∧ ivp = false ∨ m ≠ .ecb ∧ ivp = true ∧ s.op3 = blockBytes alg ∧ s.InRange s.op2 s.op3) →
    ∃ sl : Slot, exec (.modeInit c a m d ivp) s = .next (s.afterOk 0 (s.slots.set c sl)) ∧
      sl = { Slot.cleared with
        st := .active, kind := .mode, alg := alg, mode := m, dir := d, key := sl.key, r := sl.r } ∧
      sl.key.length = s.op1 ∧ (∀ i, i < s.op1 → sl.key.getD i 0 = s.byteAt (s.op0 + i)) ∧
      sl.r.length = 16 ∧
      (m ≠ .ecb → ∀ i, i < blockBytes alg → sl.r.getD i 0 = s.byteAt (s.op2 + i)) ∧
      (m = .ecb → sl.r = zeros 16) ∧ (∀ i, blockBytes alg ≤ i → sl.r.getD i 0 = 0)

/-- R140, R223: the errors of `mode.init`, each under the checks before it passed. -/
def Obligations.ModeInitErrorsInOrder : Prop :=
  ∀ (c : Nat) (a : AlgField) (m : Mode) (d : Dir) (ivp : Bool) (s : State),
    (¬ s.HasFree c → exec (.modeInit c a m d ivp) s = .next (s.afterError .badContext)) ∧
    (s.HasFree c →
      ((a = .reserved2 ∨ a = .reserved3) → exec (.modeInit c a m d ivp) s = .next (s.afterError .unsupportedMode)) ∧
      ∀ alg, (a = .aes ∧ alg = .aes ∨ a = .tdes ∧ alg = .tdes) →
        (¬ s.InRange s.op0 s.op1 ∨ ivp = true ∧ ¬ s.InRange s.op2 s.op3 →
          exec (.modeInit c a m d ivp) s = .next (s.afterError .bufferRange)) ∧
        (s.InRange s.op0 s.op1 → (ivp = true → s.InRange s.op2 s.op3) →
          (s.op1 ∉ keyLens alg → exec (.modeInit c a m d ivp) s = .next (s.afterError .invalidKeyLength)) ∧
          (s.op1 ∈ keyLens alg →
            (m = .ecb → ivp = true → exec (.modeInit c a m d ivp) s = .next (s.afterError .unsupportedMode)) ∧
            (m ≠ .ecb → (ivp = false ∨ s.op3 ≠ blockBytes alg) →
              exec (.modeInit c a m d ivp) s = .next (s.afterError .invalidIVLength)))))

/-- R141: `mode.update` of an ACTIVE mode context with both regions in range completes: the slot absorbs the input, the
whole blocks go to the output region, and nothing else changes. -/
def Obligations.ModeUpdateCompletes : Prop :=
  ∀ (c : Nat) (s : State), s.HasActive .mode c → s.InRange s.op0 s.op1 →
    s.InRange s.op2 (((s.slot c).nb + s.op1) / (s.slot c).blockLen * (s.slot c).blockLen) →
    ∃ (t : State) (data : Bytes), exec (.modeUpdate c) s = .next t ∧
      data.length = s.op1 ∧ (∀ i, i < s.op1 → data.getD i 0 = s.byteAt (s.op0 + i)) ∧
      EndsOkWriting s t (((s.slot c).nb + s.op1) / (s.slot c).blockLen * (s.slot c).blockLen)
        (s.slots.set c ((s.slot c).absorb Config.primitives data).1) s.op2
        ((s.slot c).absorb Config.primitives data).2

/-- R142: `mode.final` of an ACTIVE mode context (with no partial block left for ECB and CBC) whose output fits
completes: the context is FINALIZED and secret-cleared, the tail is written, and nothing else changes. -/
def Obligations.ModeFinalCompletes : Prop :=
  ∀ (c : Nat) (s : State), s.HasActive .mode c →
    (((s.slot c).mode = .ecb ∨ (s.slot c).mode = .cbc) → (s.slot c).nb = 0) →
    s.InRange s.op2 ((s.slot c).finalOutput Config.primitives).length →
    ∃ t, exec (.modeFinal c) s = .next t ∧
      EndsOkWriting s t ((s.slot c).finalOutput Config.primitives).length
        (s.slots.set c { s.slot c with
          st := .finalized, key := [], r := zeros 16, bbuf := [], ipad := zeros 128, opad := zeros 128, hs := none })
        s.op2 ((s.slot c).finalOutput Config.primitives)

/-- R141, R142, R131, R223: the errors of `mode.update` and `mode.final`, each under the checks before it passed. -/
def Obligations.ModeUpdateFinalErrorsInOrder : Prop :=
  ∀ (c : Nat) (s : State),
    (s.hw.nctx ≤ c ∨ (s.slot c).kind ≠ .mode →
      exec (.modeUpdate c) s = .next (s.afterError .badContext) ∧
      exec (.modeFinal c) s = .next (s.afterError .badContext)) ∧
    (c < s.hw.nctx → (s.slot c).kind = .mode → (s.slot c).st = .finalized →
      exec (.modeUpdate c) s = .next (s.afterError .contextFinalized) ∧
      exec (.modeFinal c) s = .next (s.afterError .contextFinalized)) ∧
    (s.HasActive .mode c →
      (¬ s.InRange s.op0 s.op1 ∨
          ¬ s.InRange s.op2 (((s.slot c).nb + s.op1) / (s.slot c).blockLen * (s.slot c).blockLen) →
        exec (.modeUpdate c) s = .next (s.afterError .bufferRange)) ∧
      (((s.slot c).mode = .ecb ∨ (s.slot c).mode = .cbc) → (s.slot c).nb ≠ 0 →
        exec (.modeFinal c) s = .next (s.afterError .invalidBlockLength)) ∧
      ((((s.slot c).mode = .ecb ∨ (s.slot c).mode = .cbc) → (s.slot c).nb = 0) →
        ¬ s.InRange s.op2 ((s.slot c).finalOutput Config.primitives).length →
        exec (.modeFinal c) s = .next (s.afterError .bufferRange)))

/-- R184: `hmac.init` of an attached hash into a FREE slot with the key in range completes: the padded keys are stored
and the inner hash has absorbed `IPAD`. -/
def Obligations.HmacInitCompletes : Prop :=
  ∀ (c h : Nat) (s : State), s.HasFree c → h < s.hw.nhash → s.InRange s.op0 s.op1 →
    ∃ key : Bytes, key.length = s.op1 ∧ (∀ i, i < s.op1 → key.getD i 0 = s.byteAt (s.op0 + i)) ∧
      exec (.hmacInit c h) s = .next (s.afterOk 0 (s.slots.set c { Slot.cleared with
        st := .active, kind := .hmac, hash := h
        ipad := padTo 128 (hmacIpad Config.primitives h key)
        opad := padTo 128 (hmacOpad Config.primitives h key)
        hs := some (Config.primitives.hashUpdate h (Config.primitives.hashInit h)
          (hmacIpad Config.primitives h key)) }))

/-- R185: `hmac.update` of an ACTIVE HMAC context with its input in range completes: the inner hash absorbs the input
and nothing else changes. -/
def Obligations.HmacUpdateCompletes : Prop :=
  ∀ (c : Nat) (s : State) (hs : HState), s.HasActive .hmac c → (s.slot c).hs = some hs → s.InRange s.op0 s.op1 →
    ∃ data : Bytes, data.length = s.op1 ∧ (∀ i, i < s.op1 → data.getD i 0 = s.byteAt (s.op0 + i)) ∧
      exec (.hmacUpdate c) s = .next (s.afterOk 0 (s.slots.set c
        { s.slot c with hs := some (Config.primitives.hashUpdate (s.slot c).hash hs data) }))

/-- R186: `hmac.final` of an ACTIVE HMAC context whose digest fits completes: the context is FINALIZED and
secret-cleared, the digest `H(OPAD ++ inner)` is written, and nothing else changes. -/
def Obligations.HmacFinalCompletes : Prop :=
  ∀ (c : Nat) (s : State) (hs : HState), s.HasActive .hmac c → (s.slot c).hs = some hs →
    s.InRange s.op2 (Config.primitives.hashDigest (s.slot c).hash) →
    ∃ t, exec (.hmacFinal c) s = .next t ∧
      EndsOkWriting s t (Config.primitives.hashDigest (s.slot c).hash)
        (s.slots.set c { s.slot c with
          st := .finalized, key := [], r := zeros 16, bbuf := [], ipad := zeros 128, opad := zeros 128, hs := none })
        s.op2
        (Config.primitives.hash (s.slot c).hash
          ((s.slot c).opad.take (Config.primitives.hashBlock (s.slot c).hash) ++
            Config.primitives.hashFinal (s.slot c).hash hs))

/-- R187: `hmac.copy` of an ACTIVE HMAC context into another FREE slot completes: the destination is the source field
for field and nothing else changes. -/
def Obligations.HmacCopyCompletes : Prop :=
  ∀ (c c2 : Nat) (s : State), s.HasActive .hmac c → s.HasFree c2 → c2 ≠ c →
    exec (.hmacCopy c c2) s = .next (s.afterOk 0 (s.slots.set c2 (s.slot c)))

/-- R184 to R187, R181, R223: the errors of the HMAC commands, each under the checks before it passed. -/
def Obligations.HmacErrorsInOrder : Prop :=
  ∀ (c c2 h : Nat) (s : State),
    (¬ s.HasFree c → exec (.hmacInit c h) s = .next (s.afterError .badContext)) ∧
    (s.HasFree c → s.hw.nhash ≤ h → exec (.hmacInit c h) s = .next (s.afterError .unsupportedMode)) ∧
    (s.HasFree c → h < s.hw.nhash → ¬ s.InRange s.op0 s.op1 →
      exec (.hmacInit c h) s = .next (s.afterError .bufferRange)) ∧
    (s.hw.nctx ≤ c ∨ (s.slot c).kind ≠ .hmac →
      exec (.hmacUpdate c) s = .next (s.afterError .badContext) ∧
      exec (.hmacFinal c) s = .next (s.afterError .badContext) ∧
      exec (.hmacCopy c c2) s = .next (s.afterError .badContext)) ∧
    (c < s.hw.nctx → (s.slot c).kind = .hmac → (s.slot c).st = .finalized →
      exec (.hmacUpdate c) s = .next (s.afterError .contextFinalized) ∧
      exec (.hmacFinal c) s = .next (s.afterError .contextFinalized) ∧
      exec (.hmacCopy c c2) s = .next (s.afterError .contextFinalized)) ∧
    (s.HasActive .hmac c →
      (¬ s.InRange s.op0 s.op1 → exec (.hmacUpdate c) s = .next (s.afterError .bufferRange)) ∧
      (¬ s.InRange s.op2 (Config.primitives.hashDigest (s.slot c).hash) →
        exec (.hmacFinal c) s = .next (s.afterError .bufferRange)) ∧
      (c2 = c ∨ ¬ s.HasFree c2 → exec (.hmacCopy c c2) s = .next (s.afterError .badContext)))

/-! Rules over all commands -/

/-- R224: a command that ends with any code other than OK performs only R37, whatever its word. -/
def Obligations.FailedCommandHasNoEffect : Prop :=
  ∀ s t : State, s.phase = .busy → engineTurn s = .next t → t.status.err ≠ .ok → t = s.afterError t.status.err

/-- R221: the codes a command can end with: none but those of its row. -/
def Obligations.CodesPerCommand : Prop :=
  ∀ s t : State, s.phase = .busy → engineTurn s = .next t →
    (∀ i, decode s.cmdl.word = .instr i → t.status.err ∈ possibleCodes i) ∧
    (∀ e, decode s.cmdl.word = .reject e → t.status.err = .badCommand)

/-- A command that ends in a next state leaves there `BUSY = 0`, `DONE = 1` and phase IDLE (R37), and has left the
argument registers, the latch, the parameters, `OVERRUN` and the model's own fields alone (R31, R41). -/
def Obligations.CommandsKeepFrame : Prop :=
  ∀ (i : Instr) (s t : State), exec i s = .next t →
    CommandFrame s t ∧ t.status.busy = false ∧ t.status.done = true ∧ t.phase = .idle

/-- R81: a command writes DBUF only within its output region, `RESULT_LEN` bytes from `ARG2`, and only when it ends with
OK. -/
def Obligations.CommandsWriteOnlyTheirOutput : Prop :=
  ∀ (i : Instr) (s t : State), s.Safe → exec i s = .next t →
    (t.status.err ≠ .ok → DbufUnchanged s t) ∧
    (∀ a, (a < s.op2 ∨ s.op2 + t.resultLen.toNat ≤ a) → t.byteAt a = s.byteAt a)

/-- The commands with no output write no byte of DBUF and end with `RESULT_LEN` 0 (R39, R140, R184, R185, R187, R210,
R211). -/
def Obligations.CommandsWithoutOutputKeepDbuf : Prop :=
  ∀ (i : Instr) (s t : State), (∀ c, i ≠ .modeUpdate c ∧ i ≠ .modeFinal c ∧ i ≠ .hmacFinal c) → exec i s = .next t →
    t.dbuf = s.dbuf ∧ t.resultLen = 0

/-- A command changes no slot but the one it may write (R43): the context slot, or the destination of a copy. -/
def Obligations.CommandsWriteOnlyTheirSlot : Prop :=
  ∀ (i : Instr) (s t : State) (k : Nat), exec i s = .next t → some k ≠ writtenSlot i →
    t.slot k = s.slot k ∧ t.slots.length = s.slots.length

/-- R43: a command reads no slot but those its word names: two states that differ only in other slots give the same
code, result length, DBUF and named slots. -/
def Obligations.CommandsReadOnlyNamedSlots : Prop :=
  ∀ (i : Instr) (s t t' : State) (slots : List Slot), slots.length = s.slots.length →
    (∀ k, k ∈ namedSlots i → State.slot { s with slots := slots } k = s.slot k) →
    exec i s = .next t → exec i { s with slots := slots } = .next t' →
    t'.status = t.status ∧ t'.resultLen = t.resultLen ∧ t'.dbuf = t.dbuf ∧
      ∀ k, k ∈ namedSlots i → t'.slot k = t.slot k

/-- R44: the only lifecycle transitions a command makes: an init or a copy opens a FREE slot, a final ends an ACTIVE
context, a release frees. -/
def Obligations.LifecycleTransitions : Prop :=
  ∀ (i : Instr) (s t : State) (k : Nat), s.Safe → k < s.hw.nctx → exec i s = .next t →
    (t.slot k).st = (s.slot k).st ∨
    ((s.slot k).st = .free ∧ (t.slot k).st = .active ∧
      ((∃ a m d v, i = .modeInit k a m d v) ∨ (∃ h, i = .hmacInit k h) ∨ ∃ c, i = .hmacCopy c k)) ∨
    ((s.slot k).st = .active ∧ (t.slot k).st = .finalized ∧ (i = .modeFinal k ∨ i = .hmacFinal k)) ∨
    ((t.slot k).st = .free ∧ i = .ctxRelease k)

/-- Once FINALIZED, no command but a release changes the slot (R44). -/
def Obligations.FinalizedSlotStaysUntilRelease : Prop :=
  ∀ (i : Instr) (s t : State) (k : Nat), (s.slot k).st = .finalized → i ≠ .ctxRelease k → exec i s = .next t →
    t.slot k = s.slot k

/-! The invariant and reset -/

/-- R53, R250: every legal configuration's reset state is good, and so is `State.reset`. -/
def Obligations.ResetStateIsSafe : Prop :=
  (∀ (P : Primitives) (hw : HwConfig) (draw : Nat), hw.legal = true → (State.resetWith hw draw).Inv P) ∧
  State.reset.Safe

/-- Every step keeps the invariant: canonical DBUF, `BUSY` as the phase says (R42), every slot good (R44 to R49), the
result length and error as R35 and R37 leave them. -/
def Obligations.StepKeepsInvariant : Prop :=
  ∀ s t : State, s.Safe → step s = .next t → t.Safe

/-- R53, R250, R251: the reset input gives every piece of MOCE's state its reset value, whatever was running, with a
new draw of DBUF's bytes. -/
def Obligations.ResetInputFromAnyState : Prop :=
  ∀ (s : State) (rest : List Move), s.moves = .reset :: rest →
    ∃ t, step s = .next t ∧
      t.status.word = 0 ∧ t.args = { arg0 := 0, arg1 := 0, arg2 := 0, arg3 := 0 } ∧ t.resultLen = 0 ∧
      t.phase = .idle ∧ t.cmdl = { word := 0, args := { arg0 := 0, arg1 := 0, arg2 := 0, arg3 := 0 } } ∧
      t.slots.length = s.hw.nctx ∧ (∀ k, t.slot k = Slot.cleared) ∧ t.hw = s.hw ∧
      (∀ a, t.byteAt a = Config.powerOnByte (s.draws + 1) a) ∧ t.moves = rest ∧ t.responses = s.responses

/-- R213, R48, R49: after any step from a good state, a slot that holds no ACTIVE context holds no secret. -/
def Obligations.NoSecretsOutsideActiveSlots : Prop :=
  ∀ (s t : State) (k : Nat), s.Safe → step s = .next t → k < t.hw.nctx → (t.slot k).st ≠ .active →
    (t.slot k).key = [] ∧ (t.slot k).r = zeros 16 ∧ (t.slot k).bbuf = [] ∧ (t.slot k).ipad = zeros 128 ∧
      (t.slot k).opad = zeros 128 ∧ (t.slot k).hs = none

/-! The mode engine's laws, for all primitives -/

/-- R132 to R137: the block step of each mode and direction. CFB and OFB use only `E`; OFB ignores the direction. -/
def Obligations.BlockStepEquations : Prop :=
  ∀ (E D : Bytes → Bytes) (d : Dir) (R x : Bytes),
    blockStep E D .ecb .enc R x = (E x, R) ∧
    blockStep E D .ecb .dec R x = (D x, R) ∧
    blockStep E D .cbc .enc R x = (E (xorBytes x R), E (xorBytes x R)) ∧
    blockStep E D .cbc .dec R x = (xorBytes (D x) R, x) ∧
    blockStep E D .cfb .enc R x = (xorBytes x (E R), xorBytes x (E R)) ∧
    blockStep E D .cfb .dec R x = (xorBytes x (E R), x) ∧
    blockStep E D .ofb d R x = (xorBytes x (E R), E R)

/-- R141, R146: `mode.update` cuts the buffered bytes and its input into whole blocks, runs the block step on each in
turn, and keeps the rest: `reg i` is the register before block `i`. -/
def Obligations.UpdateRunsBlockSteps : Prop :=
  ∀ (P : Primitives) (hw : HwConfig) (sl : Slot) (data : Bytes), sl.Good P hw → sl.kind = .mode →
    let stream := sl.bbuf ++ data
    let B := blockBytes sl.alg
    let n := stream.length / B
    let t := (sl.absorb P data).1
    let out := (sl.absorb P data).2
    ∃ reg : Nat → Bytes,
      reg 0 = sl.reg ∧
      (∀ i, i < n →
        ((out.drop (i * B)).take B, reg (i + 1)) =
          blockStep (P.encrypt sl.alg sl.key) (P.decrypt sl.alg sl.key) sl.mode sl.dir (reg i)
            ((stream.drop (i * B)).take B)) ∧
      out.length = n * B ∧ t.reg = reg n ∧ t.bbuf = stream.drop (n * B) ∧ t.nb < B ∧
      t = { sl with r := t.r, bbuf := t.bbuf }

/-- R139: the tail of CFB and OFB is the buffered bytes against the leading keystream bytes, and has `NB` bytes. -/
def Obligations.TailUsesLeadingKeystream : Prop :=
  ∀ (P : Primitives) (hw : HwConfig) (sl : Slot), sl.Good P hw → sl.kind = .mode → (sl.mode = .cfb ∨ sl.mode = .ofb) →
    (sl.finalOutput P).length = sl.nb ∧
    ∀ i, i < sl.nb →
      (sl.finalOutput P).getD i 0 = sl.bbuf.getD i 0 ^^^ (P.encrypt sl.alg sl.key sl.reg).getD i 0

/-- R143: feeding an ACTIVE mode context several inputs in turn is feeding it their concatenation at once: the same slot
and the same output, so the whole output depends on the message alone. -/
def Obligations.ChunkingIndependence : Prop :=
  ∀ (P : Primitives) (hw : HwConfig) (sl : Slot) (chunks : List Bytes), sl.Good P hw → sl.kind = .mode →
    sl.st = .active →
    sl.absorbAll P chunks = sl.absorb P chunks.flatten ∧ sl.output P chunks = sl.output P [chunks.flatten]

/-- R144: after inputs of total length `L` a fresh context has output `floor(L/B) * B` bytes and buffers `L mod B`; its
final adds the rest for CFB and OFB and nothing for ECB and CBC. -/
def Obligations.OutputLength : Prop :=
  ∀ (P : Primitives) (alg : Alg) (m : Mode) (d : Dir) (key iv : Bytes) (chunks : List Bytes),
    iv.length = blockBytes alg →
    let L := chunks.flatten.length
    let B := blockBytes alg
    let sl := Slot.openMode alg m d key iv
    (sl.absorbAll P chunks).2.length = L / B * B ∧ (sl.absorbAll P chunks).1.nb = L % B ∧
      ((m = .cfb ∨ m = .ofb) → (sl.output P chunks).length = L) ∧
      ((m = .ecb ∨ m = .cbc) → (sl.output P chunks).length = L / B * B)

/-- R145: decrypting what a context of the same algorithm, mode, key and IV encrypted gives the message back, however
both were cut into inputs; ECB and CBC need whole blocks and `INV_alg`, CFB and OFB neither. -/
def Obligations.RoundTrip : Prop :=
  ∀ (P : Primitives) (alg : Alg) (m : Mode) (key iv : Bytes) (plain cipher : List Bytes),
    key.length ∈ keyLens alg → iv.length = blockBytes alg →
    ((m = .ecb ∨ m = .cbc) → P.InvAlg alg ∧ plain.flatten.length % blockBytes alg = 0) →
    cipher.flatten = (Slot.openMode alg m .enc key iv).output P plain →
    (Slot.openMode alg m .dec key iv).output P cipher = plain.flatten

/-! The HMAC engine's laws, for all primitives -/

/-- R182, R183: the normalised key has the hash's block length, is the key (or the digest of a longer key) followed by
zeros, and the padded keys are it against 0x36 and 0x5c. -/
def Obligations.HmacKeyNormalisation : Prop :=
  ∀ (P : Primitives) (h : Nat) (key : Bytes),
    (key.length ≤ P.hashBlock h → hmacKey P h key = key ++ List.replicate (P.hashBlock h - key.length) 0) ∧
    (P.hashBlock h < key.length →
      hmacKey P h key = P.hash h key ++ List.replicate (P.hashBlock h - P.hashDigest h) 0) ∧
    (hmacKey P h key).length = P.hashBlock h ∧
    (hmacIpad P h key).length = P.hashBlock h ∧ (hmacOpad P h key).length = P.hashBlock h ∧
    ∀ i, i < P.hashBlock h →
      (hmacIpad P h key).getD i 0 = (hmacKey P h key).getD i 0 ^^^ 0x36#8 ∧
      (hmacOpad P h key).getD i 0 = (hmacKey P h key).getD i 0 ^^^ 0x5c#8

/-- R188, R189: under `INCR_h` the digest of a context with key `K` fed `m_1 .. m_k` is the digest formula over their
concatenation, so it depends on the concatenation alone. -/
def Obligations.HmacDigestFormula : Prop :=
  ∀ (P : Primitives) (h : Nat) (key : Bytes) (ms : List Bytes), P.IncrHash h →
    ((Slot.openHmac P h key).feedAll P ms).digest P =
      P.hash h (hmacOpad P h key ++ P.hash h (hmacIpad P h key ++ ms.flatten))

/-- R190: after a copy, feeding the original one input and the copy another, with whatever the host does between, leaves
each slot as if the context had been fed its own branch alone. -/
def Obligations.CopyIndependence : Prop :=
  ∀ (c c2 : Nat) (s s1 s2 t1 t2 : State), s.Safe → s.HasActive .hmac c → s.HasFree c2 → c2 ≠ c →
    exec (.hmacCopy c c2) s = .next s1 →
    s2.slots = s1.slots → s2.hw = s1.hw → s2.InRange s2.op0 s2.op1 → exec (.hmacUpdate c) s2 = .next t1 →
    ∀ s3 : State, s3.slots = t1.slots → s3.hw = t1.hw → s3.InRange s3.op0 s3.op1 →
      exec (.hmacUpdate c2) s3 = .next t2 →
      t2.slot c = (s.slot c).feed Config.primitives (s2.memRead s2.op0 s2.op1) ∧
      t2.slot c2 = (s.slot c).feed Config.primitives (s3.memRead s3.op0 s3.op1)
end

