-- ==== Sys2Proof/Laws/Bytes.lean ====
section
/-! SUPPORT. Lengths and cancellation of the byte-string operations. -/

namespace Sys2Proof.Machine

@[simp] theorem length_rep (v : Byte) (n : Nat) : (rep v n).length = n := List.length_replicate

@[simp] theorem length_zeros (n : Nat) : (zeros n).length = n := List.length_replicate

@[simp] theorem length_xorBytes (a b : Bytes) : (xorBytes a b).length = min a.length b.length := List.length_zipWith

@[simp] theorem length_padTo (n : Nat) (a : Bytes) : (padTo n a).length = n := by simp [padTo]

@[simp] theorem take_zeros (k n : Nat) : (zeros n).take k = zeros (min k n) := List.take_replicate

@[simp] theorem padTo_zeros (n k : Nat) : padTo n (zeros k) = zeros n := by
  simp [padTo, zeros, rep, List.replicate_append_replicate]

theorem take_padTo {n k : Nat} {a : Bytes} (ha : a.length = k) (hk : k ≤ n) : (padTo n a).take k = a := by
  rw [padTo, List.take_take, Nat.min_eq_left hk, ← ha, List.take_left]

theorem padTo_take_padTo {n k : Nat} {a : Bytes} (ha : a.length = k) (hk : k ≤ n) :
    padTo n ((padTo n a).take k) = padTo n a := by rw [take_padTo ha hk]

theorem xorBytes_cancel_right {a b : Bytes} (h : a.length ≤ b.length) : xorBytes (xorBytes a b) b = a := by
  induction a generalizing b with
  | nil => simp [xorBytes]
  | cons x xs ih =>
    cases b with
    | nil => simp at h
    | cons y ys =>
      have := ih (b := ys) (by simpa using h)
      simpa [xorBytes, BitVec.xor_assoc] using this

end Sys2Proof.Machine
end

