-- ==== Sys2Proof/Laws/Slots.lean ====
section
/-! SUPPORT. The slot file: reading after writing a slot, what choosing a slot can answer, and slot registers. -/

namespace Sys2Proof.Machine

theorem slot_set (s : State) (c k : Nat) (sl : Slot) (slots : List Slot) (h : slots = s.slotsWith c sl)
    (hc : c < s.slots.length) : slots.getD k Slot.cleared = if c = k then sl else s.slot k := by
  subst h
  by_cases hk : c = k
  · subst hk
    simp [State.slotsWith, hc]
  · simp [State.slotsWith, State.slot, List.getElem?_set_ne hk, hk]

theorem slot_mem {s : State} {c : Nat} (h : c < s.slots.length) : s.slot c ∈ s.slots := by
  simp [State.slot, h]

/-- Everything `contextOf` can answer (R131, R181). -/
theorem contextOf_cases (s : State) (k : Kind) (c : Nat) :
    (s.contextOf k c = .raised .badContext ∧ (¬ c < s.hw.nctx ∨ (s.slot c).kind ≠ k)) ∨
    (s.contextOf k c = .raised .contextFinalized ∧ c < s.hw.nctx ∧ (s.slot c).kind = k ∧
      (s.slot c).st = .finalized) ∨
    (s.contextOf k c = .slot (s.slot c) ∧ c < s.hw.nctx ∧ (s.slot c).kind = k ∧ (s.slot c).st ≠ .finalized) := by
  by_cases h1 : c < s.hw.nctx <;> by_cases h2 : (s.slot c).kind = k <;> by_cases h3 : (s.slot c).st = .finalized <;>
    simp [State.contextOf, State.hasSlot, h1, h2, h3]

theorem slotFree_iff (s : State) (c : Nat) : s.slotFree c = true ↔ c < s.hw.nctx ∧ (s.slot c).st = .free := by
  simp [State.slotFree, State.hasSlot]

theorem validRegion_iff (s : State) (off n : Nat) :
    s.validRegion off n = true ↔ n = 0 ∨ off + n ≤ s.hw.dbufBytes := by
  simp [State.validRegion]

@[simp] theorem length_memRead (s : State) (off n : Nat) : (s.memRead off n).length = n := by simp [State.memRead]

/-- `MemRead` byte by byte (R78). -/
theorem getD_memRead (s : State) (off : Nat) {n i : Nat} (h : i < n) :
    (s.memRead off n).getD i 0 = s.byteAt (off + i) := by simp [State.memRead, h]

theorem contextOf_active {s : State} {k : Kind} {c : Nat} (hc : c < s.hw.nctx) (hk : (s.slot c).kind = k)
    (hst : (s.slot c).st = .active) : s.contextOf k c = .slot (s.slot c) := by
  simp [State.contextOf, State.hasSlot, hc, hk, hst]

theorem blockBytes_le_bmax (alg : Alg) : blockBytes alg ≤ bmax := by cases alg <;> decide

theorem blockBytes_pos (alg : Alg) : 0 < blockBytes alg := by cases alg <;> decide

theorem reg_withReg {sl : Slot} {bs : Bytes} (h : bs.length = sl.blockLen) : (sl.withReg bs).reg = bs :=
  take_padTo h (blockBytes_le_bmax sl.alg)

theorem length_reg {sl : Slot} (h : sl.r.length = bmax) : sl.reg.length = sl.blockLen := by
  simp [Slot.reg, h, Slot.blockLen, blockBytes_le_bmax]

end Sys2Proof.Machine
end

