-- ==== Sys2Proof/Laws/Block.lean ====
section
/-! SUPPORT. The block loop: lengths, and running `n + m` blocks as `n` and then `m`. -/

namespace Sys2Proof.Machine

section
variable (step : Bytes → Bytes → Bytes × Bytes) (B : Nat)

@[simp] theorem runBlocks_zero (R stream : Bytes) : runBlocks step B 0 R stream = ([], R, stream) := rfl

theorem runBlocks_succ (n : Nat) (R stream : Bytes) :
    runBlocks step B (n + 1) R stream =
      ((step R (stream.take B)).1 ++ (runBlocks step B n (step R (stream.take B)).2 (stream.drop B)).1,
        (runBlocks step B n (step R (stream.take B)).2 (stream.drop B)).2) := rfl

/-- The loop consumes exactly `n * B` bytes of the stream. -/
theorem runBlocks_rest (n : Nat) (R stream : Bytes) : (runBlocks step B n R stream).2.2 = stream.drop (n * B) := by
  induction n generalizing R stream with
  | zero => simp
  | succ n ih => rw [runBlocks_succ]; simp only [ih, List.drop_drop]; congr 1; ring

/-- The loop looks at no byte past its `n` blocks. -/
theorem runBlocks_append (n : Nat) (R stream more : Bytes) (h : n * B ≤ stream.length) :
    runBlocks step B n R (stream ++ more) =
      ((runBlocks step B n R stream).1, (runBlocks step B n R stream).2.1,
        (runBlocks step B n R stream).2.2 ++ more) := by
  induction n generalizing R stream with
  | zero => rfl
  | succ n ih =>
    have hB : B ≤ stream.length := Nat.le_trans (Nat.le_mul_of_pos_left B n.succ_pos) h
    have hn : n * B ≤ (stream.drop B).length := by
      rw [List.length_drop]; rw [Nat.succ_mul] at h; omega
    simp only [runBlocks_succ, List.take_append_of_le_length hB, List.drop_append_of_le_length hB, ih _ _ hn]

/-- `n + m` blocks are `n` blocks and then `m` blocks of the rest. -/
theorem runBlocks_add (n m : Nat) (R stream : Bytes) :
    runBlocks step B (n + m) R stream =
      ((runBlocks step B n R stream).1 ++
          (runBlocks step B m (runBlocks step B n R stream).2.1 (runBlocks step B n R stream).2.2).1,
        (runBlocks step B m (runBlocks step B n R stream).2.1 (runBlocks step B n R stream).2.2).2) := by
  induction n generalizing R stream with
  | zero => simp
  | succ n ih => rw [Nat.succ_add, runBlocks_succ, runBlocks_succ]; simp only [ih, List.append_assoc]

/-- Where a step keeps both lengths at `B`, the loop's output has `n * B` bytes and its register `B`. -/
theorem runBlocks_length
    (hs : ∀ R x, R.length = B → x.length = B → (step R x).1.length = B ∧ (step R x).2.length = B)
    (n : Nat) (R stream : Bytes) (hR : R.length = B) (h : n * B ≤ stream.length) :
    (runBlocks step B n R stream).1.length = n * B ∧ (runBlocks step B n R stream).2.1.length = B := by
  induction n generalizing R stream with
  | zero => simp [hR]
  | succ n ih =>
    have hB : B ≤ stream.length := Nat.le_trans (Nat.le_mul_of_pos_left B n.succ_pos) h
    have hx : (stream.take B).length = B := by rw [List.length_take]; omega
    have hn : n * B ≤ (stream.drop B).length := by
      rw [List.length_drop]; rw [Nat.succ_mul] at h; omega
    obtain ⟨h1, h2⟩ := hs R _ hR hx
    obtain ⟨h3, h4⟩ := ih _ _ h2 hn
    rw [runBlocks_succ]
    refine ⟨?_, h4⟩
    rw [List.length_append, h1, h3]
    ring

end

/-- Every block step keeps the block length (R132 to R137). -/
theorem blockStep_length {E D : Bytes → Bytes} {B : Nat} (hE : ∀ x, x.length = B → (E x).length = B)
    (hD : ∀ x, x.length = B → (D x).length = B) (m : Mode) (d : Dir) (R x : Bytes) (hR : R.length = B)
    (hx : x.length = B) : (blockStep E D m d R x).1.length = B ∧ (blockStep E D m d R x).2.length = B := by
  cases m <;> cases d <;> simp [blockStep, stepEcb, stepCbc, stepCfb, stepOfb, hE, hD, hR, hx]

theorem slotStep_length (P : Primitives) (sl : Slot) (R x : Bytes) (hR : R.length = sl.blockLen)
    (hx : x.length = sl.blockLen) : (sl.step P R x).1.length = sl.blockLen ∧ (sl.step P R x).2.length = sl.blockLen :=
  blockStep_length (fun _ h => P.encrypt_length _ _ _ h) (fun _ h => P.decrypt_length _ _ _ h) _ _ _ _ hR hx

/-- `mode.update`'s block count fits its stream. -/
theorem fullBlocks_le (sl : Slot) (data : Bytes) :
    sl.fullBlocks data.length * sl.blockLen ≤ (sl.bbuf ++ data).length := by
  rw [List.length_append]
  exact Nat.div_mul_le_self _ _

/-- What `mode.update` does to its slot: only `R` and `BBUF` change (R141). -/
theorem absorb_slot (P : Primitives) (sl : Slot) (data : Bytes) :
    (sl.absorb P data).1 =
      { sl.withReg (runBlocks (sl.step P) sl.blockLen (sl.fullBlocks data.length) sl.reg (sl.bbuf ++ data)).2.1 with
        bbuf := (sl.bbuf ++ data).drop (sl.fullBlocks data.length * sl.blockLen) } := by
  rw [← runBlocks_rest (sl.step P) sl.blockLen _ sl.reg]
  rfl

theorem absorb_out (P : Primitives) (sl : Slot) (data : Bytes) :
    (sl.absorb P data).2 =
      (runBlocks (sl.step P) sl.blockLen (sl.fullBlocks data.length) sl.reg (sl.bbuf ++ data)).1 := rfl

/-- The output of `mode.final` (R139, R142): nothing for ECB and CBC, `NB` bytes for CFB and OFB. -/
theorem finalOutput_length (P : Primitives) {sl : Slot} (h : sl.r.length = bmax) (hb : sl.nb < sl.blockLen) :
    (sl.finalOutput P).length =
      match sl.mode with
      | .ecb => 0
      | .cbc => 0
      | .cfb => sl.nb
      | .ofb => sl.nb := by
  have hl : (P.encrypt sl.alg sl.key sl.reg).length = sl.blockLen := P.encrypt_length _ _ _ (length_reg h)
  simp only [Slot.nb] at *
  cases hm : sl.mode <;> simp [Slot.finalOutput, hm, Slot.tail, Slot.enc, Slot.nb, hl]
  all_goals omega

/-- The output of `mode.update` has the length R141 states. -/
theorem absorb_out_length (P : Primitives) (sl : Slot) (data : Bytes) (h : sl.r.length = bmax) :
    (sl.absorb P data).2.length = sl.fullBlocks data.length * sl.blockLen :=
  (runBlocks_length _ _ (slotStep_length P sl) _ _ _ (length_reg h) (fullBlocks_le sl data)).1

end Sys2Proof.Machine
end

