-- ==== Sys2Proof/Laws/Bus.lean ====
section
/-! SUPPORT. Where an access lands, in both halves of the window, and the lanes of a word that bytes make. -/

namespace Sys2Proof.Machine

/-- An access to the register window (R74, R75). -/
theorem target_register (s : State) {off : Nat} (n : Nat) (h : off < 0x1000) :
    s.target (s.hw.base + off) n =
      match regAt off with
      | some r => if n = 4 then .reg r else .busError
      | none => .busError := by
  have h1 : ¬ s.hw.base + off < s.hw.base := by omega
  cases hr : regAt off <;>
    simp only [State.target, dbufWindow, h1, if_false, Nat.add_sub_cancel_left, h, if_true, hr]

/-- An access to DBUF (R76, R77). -/
theorem target_dbuf (s : State) (d n : Nat) :
    s.target (s.hw.base + 0x1000 + d) n =
      if (n = 1 ∨ n = 2 ∨ n = 4) ∧ d % n = 0 ∧ d + n ≤ s.hw.dbufBytes ∧ s.status.busy = false then .buffer d
      else .busError := by
  have h1 : ¬ s.hw.base + 0x1000 + d < s.hw.base := by omega
  have h2 : s.hw.base + 0x1000 + d - s.hw.base = 0x1000 + d := by omega
  have h3 : ¬ 0x1000 + d < dbufWindow := Nat.not_lt.2 (Nat.le_add_right _ _)
  have h4 : 0x1000 + d - dbufWindow = d := Nat.add_sub_cancel_left _ _
  simp only [State.target, h1, h2, h3, h4, if_false, Bool.and_eq_true, Bool.or_eq_true, decide_eq_true_eq, beq_iff_eq,
    Bool.not_eq_true', and_assoc, or_assoc]

/-- An access that lands in DBUF lies inside it. -/
theorem target_buffer_inside {s : State} {addr n off : Nat} (h : s.target addr n = .buffer off) :
    off + n ≤ s.hw.dbufBytes ∧ s.status.busy = false := by
  unfold State.target at h
  simp only at h
  repeat' split at h
  all_goals try simp only [reduceCtorEq] at h
  next hb =>
  simp only [Bool.and_eq_true, decide_eq_true_eq, Bool.not_eq_true'] at hb
  injection h with h
  exact h ▸ ⟨hb.1.2, hb.2⟩

/-- The offsets at which a register lies (R33). -/
theorem regAt_isSome (off : Nat) : (regAt off).isSome = true ↔ off % 4 = 0 ∧ off < 0x20 := by
  constructor
  · intro h
    unfold regAt at h
    repeat' split at h
    all_goals first | omega | cases h
  · rintro ⟨h1, h2⟩
    interval_cases off <;> first | omega | rfl

theorem lane_wordOf_cons (b : Byte) (bs : Bytes) (i : Nat) :
    lane (wordOf (b :: bs)) i = if i = 0 then b else if i < 4 then lane (wordOf bs) (i - 1) else 0 := by
  refine BitVec.eq_of_getLsbD_eq fun j hj => ?_
  rcases i with _ | i
  · simp [lane, wordOf, hj]
    omega
  · have hb : b.getLsbD (8 * (i + 1) + j) = false := BitVec.getLsbD_of_ge _ _ (by omega)
    by_cases h4 : i + 1 < 4
    · have e : 8 * (i + 1) + j - 8 = 8 * i + j := by omega
      simp [lane, wordOf, hj, hb, h4, e]
      omega
    · simp [lane, wordOf, hj, hb, h4]
      omega

/-- Lane `i` of the word that at most four bytes make is byte `i`, or zero past them (R76). -/
theorem lane_wordOf {bs : Bytes} (hb : bs.length ≤ 4) (i : Nat) : lane (wordOf bs) i = bs.getD i 0 := by
  induction bs generalizing i with
  | nil => simp [wordOf, lane]
  | cons b bs ih =>
    simp only [List.length_cons] at hb
    rw [lane_wordOf_cons]
    rcases i with _ | i
    · simp
    · by_cases h4 : i + 1 < 4
      · simp [h4, ih (by omega)]
      · have : bs[i]? = none := List.getElem?_eq_none (by omega)
        simp [h4, this]

/-- No access changes who moves next. -/
@[simp] theorem access_moves (s : State) (a : Access) : (s.access a).1.moves = s.moves := by
  cases a <;> simp only [State.access] <;> split <;> try rfl
  next r _ =>
    cases r <;> simp only [State.writeReg, State.writeCmd]
    split <;> rfl

end Sys2Proof.Machine
end

