-- ==== Sys2Proof/Laws/State.lean ====
section
/-! SUPPORT. One lemma per field per update of the state. -/

namespace Sys2Proof.Machine

section
variable (s : State) (w : Word) (code : StatusCode) (n : Nat)

@[simp] theorem acceptCmd_status : (s.acceptCmd w).status = s.status.accepted := rfl
@[simp] theorem acceptCmd_args : (s.acceptCmd w).args = s.args := rfl
@[simp] theorem acceptCmd_resultLen : (s.acceptCmd w).resultLen = 0 := rfl
@[simp] theorem acceptCmd_phase : (s.acceptCmd w).phase = .busy := rfl
@[simp] theorem acceptCmd_cmdl : (s.acceptCmd w).cmdl = { word := w, args := s.args } := rfl
@[simp] theorem acceptCmd_slots : (s.acceptCmd w).slots = s.slots := rfl
@[simp] theorem acceptCmd_dbuf : (s.acceptCmd w).dbuf = s.dbuf := rfl
@[simp] theorem acceptCmd_hw : (s.acceptCmd w).hw = s.hw := rfl
@[simp] theorem acceptCmd_draws : (s.acceptCmd w).draws = s.draws := rfl
@[simp] theorem acceptCmd_moves : (s.acceptCmd w).moves = s.moves := rfl
@[simp] theorem acceptCmd_responses : (s.acceptCmd w).responses = s.responses := rfl

@[simp] theorem complete_status : (s.complete code n).status = s.status.completed code := rfl
@[simp] theorem complete_args : (s.complete code n).args = s.args := rfl
@[simp] theorem complete_resultLen : (s.complete code n).resultLen = BitVec.ofNat 32 n := rfl
@[simp] theorem complete_phase : (s.complete code n).phase = .idle := rfl
@[simp] theorem complete_cmdl : (s.complete code n).cmdl = s.cmdl := rfl
@[simp] theorem complete_slots : (s.complete code n).slots = s.slots := rfl
@[simp] theorem complete_dbuf : (s.complete code n).dbuf = s.dbuf := rfl
@[simp] theorem complete_hw : (s.complete code n).hw = s.hw := rfl
@[simp] theorem complete_draws : (s.complete code n).draws = s.draws := rfl
@[simp] theorem complete_moves : (s.complete code n).moves = s.moves := rfl
@[simp] theorem complete_responses : (s.complete code n).responses = s.responses := rfl

@[simp] theorem raise_status : (s.raise code).status = s.status.completed code := rfl
@[simp] theorem raise_args : (s.raise code).args = s.args := rfl
@[simp] theorem raise_resultLen : (s.raise code).resultLen = 0 := rfl
@[simp] theorem raise_phase : (s.raise code).phase = .idle := rfl
@[simp] theorem raise_cmdl : (s.raise code).cmdl = s.cmdl := rfl
@[simp] theorem raise_slots : (s.raise code).slots = s.slots := rfl
@[simp] theorem raise_dbuf : (s.raise code).dbuf = s.dbuf := rfl
@[simp] theorem raise_hw : (s.raise code).hw = s.hw := rfl
@[simp] theorem raise_draws : (s.raise code).draws = s.draws := rfl
@[simp] theorem raise_moves : (s.raise code).moves = s.moves := rfl
@[simp] theorem raise_responses : (s.raise code).responses = s.responses := rfl

@[simp] theorem accepted_busy (st : StatusReg) : st.accepted.busy = true := rfl
@[simp] theorem accepted_done (st : StatusReg) : st.accepted.done = false := rfl
@[simp] theorem accepted_overrun (st : StatusReg) : st.accepted.overrun = st.overrun := rfl
@[simp] theorem accepted_err (st : StatusReg) : st.accepted.err = .ok := rfl
@[simp] theorem completed_busy (st : StatusReg) : (st.completed code).busy = false := rfl
@[simp] theorem completed_done (st : StatusReg) : (st.completed code).done = true := rfl
@[simp] theorem completed_overrun (st : StatusReg) : (st.completed code).overrun = st.overrun := rfl
@[simp] theorem completed_err (st : StatusReg) : (st.completed code).err = code := rfl

@[simp] theorem resetInput_moves : s.resetInput.moves = s.moves := rfl
@[simp] theorem resetInput_responses : s.resetInput.responses = s.responses := rfl
@[simp] theorem resetInput_hw : s.resetInput.hw = s.hw := rfl
@[simp] theorem resetInput_draws : s.resetInput.draws = s.draws + 1 := rfl
@[simp] theorem resetInput_slots : s.resetInput.slots = List.replicate s.hw.nctx Slot.cleared := rfl
@[simp] theorem resetInput_dbuf : s.resetInput.dbuf = [] := rfl
@[simp] theorem resetInput_status : s.resetInput.status = StatusReg.reset := rfl
@[simp] theorem resetInput_args : s.resetInput.args = ArgRegs.zero := rfl
@[simp] theorem resetInput_resultLen : s.resetInput.resultLen = 0 := rfl
@[simp] theorem resetInput_phase : s.resetInput.phase = .idle := rfl
@[simp] theorem resetInput_cmdl : s.resetInput.cmdl = { word := 0, args := ArgRegs.zero } := rfl

end

section
variable (s : State) (slots : List Slot) (off : Nat) (out : Bytes) (n : Nat)

@[simp] theorem finish_done_status :
    (s.finish (.done n slots off out)).status = s.status.completed .ok := rfl
@[simp] theorem finish_done_resultLen : (s.finish (.done n slots off out)).resultLen = BitVec.ofNat 32 n := rfl
@[simp] theorem finish_done_slots : (s.finish (.done n slots off out)).slots = slots := rfl
@[simp] theorem finish_done_dbuf : (s.finish (.done n slots off out)).dbuf = s.dbuf.storeBytes off out := rfl
@[simp] theorem finish_raised (code : StatusCode) : s.finish (.raised code) = s.raise code := rfl

end

section
variable (s : State) (c : Completion)

@[simp] theorem finish_args : (s.finish c).args = s.args := by cases c <;> rfl
@[simp] theorem finish_phase : (s.finish c).phase = .idle := by cases c <;> rfl
@[simp] theorem finish_cmdl : (s.finish c).cmdl = s.cmdl := by cases c <;> rfl
@[simp] theorem finish_hw : (s.finish c).hw = s.hw := by cases c <;> rfl
@[simp] theorem finish_draws : (s.finish c).draws = s.draws := by cases c <;> rfl
@[simp] theorem finish_moves : (s.finish c).moves = s.moves := by cases c <;> rfl
@[simp] theorem finish_responses : (s.finish c).responses = s.responses := by cases c <;> rfl
@[simp] theorem finish_busy : (s.finish c).status.busy = false := by cases c <;> rfl
@[simp] theorem finish_doneFlag : (s.finish c).status.done = true := by cases c <;> rfl
@[simp] theorem finish_overrun : (s.finish c).status.overrun = s.status.overrun := by cases c <;> rfl

end

end Sys2Proof.Machine
end

