-- ==== Sys2Proof/Laws/Step.lean ====
section
/-! SUPPORT. Everything one step can do: each command ends as a `Completion`, and a step is one of four moves. -/

namespace Sys2Proof.Machine

/-- How each command ends. -/
def completionOf (P : Primitives) (s : State) : Instr → Completion
  | .nop => nop s
  | .modeInit c a m d v => modeInit c a m d v s
  | .modeUpdate c => modeUpdate P c s
  | .modeFinal c => modeFinal P c s
  | .hmacInit c h => hmacInit P c h s
  | .hmacUpdate c => hmacUpdate P c s
  | .hmacFinal c => hmacFinal P c s
  | .hmacCopy c c2 => hmacCopy c c2 s
  | .ctxRelease c => ctxRelease c s

/-- Every command answers a next state, the one its completion leaves. -/
theorem exec_eq (i : Instr) (s : State) : exec i s = .next (s.finish (completionOf Config.primitives s i)) := by
  cases i <;> rfl

theorem exec_next_iff {i : Instr} {s t : State} :
    exec i s = .next t ↔ t = s.finish (completionOf Config.primitives s i) := by
  rw [exec_eq, Host.Outcome.next.injEq, eq_comm]

/-- The engine's step in phase BUSY, whatever the word. -/
theorem runCommand_cases (s : State) :
    (∃ i, decode s.cmdl.word = .instr i ∧ runCommand s = .next (s.finish (completionOf Config.primitives s i))) ∨
    (∃ e, decode s.cmdl.word = .reject e ∧ runCommand s = .next (s.raise .badCommand)) := by
  cases h : decode s.cmdl.word with
  | instr i => exact .inl ⟨i, rfl, by simp [runCommand, h, exec_eq]⟩
  | reject e => exact .inr ⟨e, rfl, by simp [runCommand, h]⟩

/-- Everything the engine's turn can do. -/
theorem engineTurn_cases {s t : State} (h : engineTurn s = .next t) :
    (s.phase = .idle ∧ t = s) ∨
    (s.phase = .busy ∧
      ((∃ i, decode s.cmdl.word = .instr i ∧ t = s.finish (completionOf Config.primitives s i)) ∨
        (∃ e, decode s.cmdl.word = .reject e ∧ t = s.raise .badCommand))) := by
  cases hp : s.phase with
  | idle =>
    left
    simp only [engineTurn, hp, Host.Outcome.next.injEq] at h
    exact ⟨rfl, h.symm⟩
  | busy =>
    right
    refine ⟨rfl, ?_⟩
    simp only [engineTurn, hp] at h
    rcases runCommand_cases s with ⟨i, hi, hr⟩ | ⟨e, he, hr⟩
    · rw [hr, Host.Outcome.next.injEq] at h
      exact .inl ⟨i, hi, h.symm⟩
    · rw [hr, Host.Outcome.next.injEq] at h
      exact .inr ⟨e, he, h.symm⟩

/-- Everything a step can do: with no move to come the engine's turn; else the first move. -/
theorem step_cases {s t : State} (h : step s = .next t) :
    (s.moves = [] ∧ engineTurn s = .next t) ∨
    (∃ rest, s.moves = .engine :: rest ∧ engineTurn { s with moves := rest } = .next t) ∨
    (∃ a rest, s.moves = .host a :: rest ∧ t = State.hostMove { s with moves := rest } a) ∨
    (∃ rest, s.moves = .reset :: rest ∧ t = State.resetInput { s with moves := rest }) := by
  unfold step advance at h
  split at h
  · next hm => exact .inl ⟨hm, h⟩
  · next m rest hm =>
    cases m with
    | engine => exact .inr (.inl ⟨rest, hm, h⟩)
    | host a =>
      rw [performMove, Host.Outcome.next.injEq] at h
      exact .inr (.inr (.inl ⟨a, rest, hm, h.symm⟩))
    | reset =>
      rw [performMove, Host.Outcome.next.injEq] at h
      exact .inr (.inr (.inr ⟨rest, hm, h.symm⟩))

end Sys2Proof.Machine
end

