-- ==== Sys2Proof/Laws/Commands.lean ====
section
/-! SUPPORT. Everything each command can do: one inversion lemma per command, for the case that it ends with OK, and
one for all commands together. -/

namespace Sys2Proof.Machine

section
variable {P : Primitives} {c c2 h n off : Nat} {a : AlgField} {m : Mode} {d : Dir} {v : Bool} {s : State}
  {slots : List Slot} {out : Bytes}

theorem nop_done (hd : nop s = .done n slots off out) : n = 0 ∧ out = [] ∧ slots = s.slots := by
  cases hd
  exact ⟨rfl, rfl, rfl⟩

theorem ctxRelease_done (hd : ctxRelease c s = .done n slots off out) :
    n = 0 ∧ out = [] ∧ c < s.hw.nctx ∧ slots = s.slotsWith c Slot.cleared := by
  unfold ctxRelease at hd
  split at hd
  · cases hd
  · next hc =>
    cases hd
    exact ⟨rfl, rfl, by simpa [State.hasSlot] using hc, rfl⟩

theorem modeInit_done (hd : modeInit c a m d v s = .done n slots off out) :
    n = 0 ∧ out = [] ∧ c < s.hw.nctx ∧ (s.slot c).st = .free ∧
      ∃ alg, algOfField a = some alg ∧ s.op1 ∈ keyLens alg ∧
        slots = s.slotsWith c (Slot.openMode alg m d (s.memRead s.op0 s.op1) (s.initialReg alg m)) := by
  unfold modeInit at hd
  split at hd
  · cases hd
  · next hf =>
    obtain ⟨hc, hst⟩ := (slotFree_iff s c).1 (by simpa using hf)
    split at hd
    · cases hd
    · next alg ha =>
      unfold modeInitWith at hd
      repeat' split at hd
      all_goals first | (cases hd; done) | skip
      next hk _ _ =>
      cases hd
      exact ⟨rfl, rfl, hc, hst, alg, ha, by simpa using hk, rfl⟩

theorem contextOf_slot {k : Kind} {sl : Slot} (h : s.contextOf k c = .slot sl) :
    sl = s.slot c ∧ c < s.hw.nctx ∧ (s.slot c).kind = k ∧ (s.slot c).st ≠ .finalized := by
  rcases contextOf_cases s k c with ⟨h', -⟩ | ⟨h', -⟩ | ⟨h', hr⟩
  · rw [h'] at h; cases h
  · rw [h'] at h; cases h
  · rw [h'] at h; cases h; exact ⟨rfl, hr⟩

theorem modeUpdate_done (hd : modeUpdate P c s = .done n slots off out) :
    c < s.hw.nctx ∧ (s.slot c).kind = .mode ∧ (s.slot c).st ≠ .finalized ∧
      n = (s.slot c).fullBlocks s.op1 * (s.slot c).blockLen ∧ off = s.op2 ∧ s.validRegion s.op2 n = true ∧
      slots = s.slotsWith c ((s.slot c).absorb P (s.memRead s.op0 s.op1)).1 ∧
      out = ((s.slot c).absorb P (s.memRead s.op0 s.op1)).2 := by
  unfold modeUpdate at hd
  split at hd
  · cases hd
  · next sl hs =>
    obtain ⟨rfl, hc, hk, hst⟩ := contextOf_slot hs
    repeat' split at hd
    all_goals first | (cases hd; done) | skip
    next hv =>
    cases hd
    exact ⟨hc, hk, hst, rfl, rfl, by simpa using hv, rfl, rfl⟩

theorem modeFinal_done (hd : modeFinal P c s = .done n slots off out) :
    c < s.hw.nctx ∧ (s.slot c).kind = .mode ∧ (s.slot c).st ≠ .finalized ∧
      n = ((s.slot c).finalOutput P).length ∧ off = s.op2 ∧ s.validRegion s.op2 n = true ∧
      slots = s.slotsWith c { (s.slot c).secretCleared with st := .finalized } ∧ out = (s.slot c).finalOutput P := by
  unfold modeFinal at hd
  split at hd
  · cases hd
  · next sl hs =>
    obtain ⟨rfl, hc, hk, hst⟩ := contextOf_slot hs
    repeat' split at hd
    all_goals first | (cases hd; done) | skip
    next hv =>
    cases hd
    exact ⟨hc, hk, hst, rfl, rfl, by simpa using hv, rfl, rfl⟩

theorem hmacInit_done (hd : hmacInit P c h s = .done n slots off out) :
    n = 0 ∧ out = [] ∧ c < s.hw.nctx ∧ (s.slot c).st = .free ∧ h < s.hw.nhash ∧
      slots = s.slotsWith c (Slot.openHmac P h (s.memRead s.op0 s.op1)) := by
  unfold hmacInit at hd
  repeat' split at hd
  all_goals first | (cases hd; done) | skip
  next hf hh _ =>
  cases hd
  obtain ⟨hc, hst⟩ := (slotFree_iff s c).1 (by simpa using hf)
  exact ⟨rfl, rfl, hc, hst, by omega, rfl⟩

theorem hmacUpdate_done (hd : hmacUpdate P c s = .done n slots off out) :
    n = 0 ∧ out = [] ∧ c < s.hw.nctx ∧ (s.slot c).kind = .hmac ∧ (s.slot c).st ≠ .finalized ∧
      slots = s.slotsWith c ((s.slot c).feed P (s.memRead s.op0 s.op1)) := by
  unfold hmacUpdate at hd
  split at hd
  · cases hd
  · next sl hs =>
    obtain ⟨rfl, hc, hk, hst⟩ := contextOf_slot hs
    split at hd
    · cases hd
    · cases hd
      exact ⟨rfl, rfl, hc, hk, hst, rfl⟩

theorem hmacFinal_done (hd : hmacFinal P c s = .done n slots off out) :
    c < s.hw.nctx ∧ (s.slot c).kind = .hmac ∧ (s.slot c).st ≠ .finalized ∧
      n = P.hashDigest (s.slot c).hash ∧ off = s.op2 ∧ s.validRegion s.op2 n = true ∧
      slots = s.slotsWith c { (s.slot c).secretCleared with st := .finalized } ∧ out = (s.slot c).digest P := by
  unfold hmacFinal at hd
  split at hd
  · cases hd
  · next sl hs =>
    obtain ⟨rfl, hc, hk, hst⟩ := contextOf_slot hs
    split at hd
    · cases hd
    · next hv =>
      cases hd
      exact ⟨hc, hk, hst, rfl, rfl, by simpa using hv, rfl, rfl⟩

theorem hmacCopy_done (hd : hmacCopy c c2 s = .done n slots off out) :
    n = 0 ∧ out = [] ∧ c < s.hw.nctx ∧ (s.slot c).kind = .hmac ∧ (s.slot c).st ≠ .finalized ∧ c2 ≠ c ∧
      c2 < s.hw.nctx ∧ (s.slot c2).st = .free ∧ slots = s.slotsWith c2 (s.slot c) := by
  unfold hmacCopy at hd
  split at hd
  · cases hd
  · next sl hs =>
    obtain ⟨rfl, hc, hk, hst⟩ := contextOf_slot hs
    split at hd
    · cases hd
    · next hf =>
      simp only [Bool.or_eq_true, decide_eq_true_eq, Bool.not_eq_true', not_or] at hf
      obtain ⟨h2, h3⟩ := (slotFree_iff s c2).1 (by simpa using hf.2)
      cases hd
      exact ⟨rfl, rfl, hc, hk, hst, hf.1, h2, h3, rfl⟩

theorem digest_length (P : Primitives) (sl : Slot) : (sl.digest P).length = P.hashDigest sl.hash :=
  P.hashFinal_length _ _

/-- What a command that ends with OK does to the slot file and to DBUF, whichever it is: it writes at most the one slot
it may write, which exists; and either no byte, with result length 0, or bytes from `ARG2` on that are in range. -/
theorem completionOf_done {i : Instr} (hd : completionOf P s i = .done n slots off out) :
    (slots = s.slots ∨ ∃ c sl, writtenSlot i = some c ∧ c < s.hw.nctx ∧ slots = s.slotsWith c sl) ∧
      ((n = 0 ∧ out = []) ∨ (off = s.op2 ∧ s.validRegion s.op2 n = true)) := by
  cases i with
  | nop => obtain ⟨h1, h2, h3⟩ := nop_done hd; exact ⟨.inl h3, .inl ⟨h1, h2⟩⟩
  | modeInit c a m d v =>
    obtain ⟨h1, h2, h3, -, alg, -, -, h4⟩ := modeInit_done hd
    exact ⟨.inr ⟨c, _, rfl, h3, h4⟩, .inl ⟨h1, h2⟩⟩
  | modeUpdate c =>
    obtain ⟨h1, -, -, -, h2, h3, h4, -⟩ := modeUpdate_done hd
    exact ⟨.inr ⟨c, _, rfl, h1, h4⟩, .inr ⟨h2, h3⟩⟩
  | modeFinal c =>
    obtain ⟨h1, -, -, -, h2, h3, h4, -⟩ := modeFinal_done hd
    exact ⟨.inr ⟨c, _, rfl, h1, h4⟩, .inr ⟨h2, h3⟩⟩
  | hmacInit c h =>
    obtain ⟨h1, h2, h3, -, -, h4⟩ := hmacInit_done hd
    exact ⟨.inr ⟨c, _, rfl, h3, h4⟩, .inl ⟨h1, h2⟩⟩
  | hmacUpdate c =>
    obtain ⟨h1, h2, h3, -, -, h4⟩ := hmacUpdate_done hd
    exact ⟨.inr ⟨c, _, rfl, h3, h4⟩, .inl ⟨h1, h2⟩⟩
  | hmacFinal c =>
    obtain ⟨h1, -, -, -, h2, h3, h4, -⟩ := hmacFinal_done hd
    exact ⟨.inr ⟨c, _, rfl, h1, h4⟩, .inr ⟨h2, h3⟩⟩
  | hmacCopy c c2 =>
    obtain ⟨h1, h2, -, -, -, -, h3, -, h4⟩ := hmacCopy_done hd
    exact ⟨.inr ⟨c2, _, rfl, h3, h4⟩, .inl ⟨h1, h2⟩⟩
  | ctxRelease c =>
    obtain ⟨h1, h2, h3, h4⟩ := ctxRelease_done hd
    exact ⟨.inr ⟨c, _, rfl, h3, h4⟩, .inl ⟨h1, h2⟩⟩

end

end Sys2Proof.Machine
end

