-- ==== Sys2Proof/Laws/Good.lean ====
section
/-! SUPPORT. The slot values the commands write are good slots. -/

namespace Sys2Proof.Machine

theorem cleared_good (P : Primitives) (hw : HwConfig) : Slot.cleared.Good P hw where
  rWidth := rfl
  ipadWidth := rfl
  opadWidth := rfl
  kindNone := ⟨fun _ => rfl, fun _ => rfl⟩
  freeCleared _ := rfl
  finalizedCleared h := nomatch h
  modeKey h := nomatch h
  modeBuffer h := nomatch h
  modeReg h := nomatch h
  modeEcb h := nomatch h
  modeOnly h := nomatch h
  hmacHash h := nomatch h
  hmacState h := nomatch h
  hmacPads h := nomatch h
  hmacOnly h := nomatch h

theorem openMode_good (P : Primitives) (hw : HwConfig) {alg : Alg} {m : Mode} {d : Dir} {key iv : Bytes}
    (hk : key.length ∈ keyLens alg) (hiv : iv.length = blockBytes alg) (hecb : m = .ecb → iv = zeros (blockBytes alg)) :
    (Slot.openMode alg m d key iv).Good P hw where
  rWidth := length_padTo _ _
  ipadWidth := rfl
  opadWidth := rfl
  kindNone := ⟨nofun, nofun⟩
  freeCleared h := nomatch h
  finalizedCleared h := nomatch h
  modeKey _ _ := hk
  modeBuffer _ := blockBytes_pos alg
  modeReg _ := padTo_take_padTo hiv (blockBytes_le_bmax alg)
  modeEcb _ h := by
    show padTo bmax iv = zeros bmax
    rw [hecb h, padTo_zeros]
  modeOnly _ := ⟨rfl, rfl, rfl, rfl⟩
  hmacHash h := nomatch h
  hmacState h := nomatch h
  hmacPads h := nomatch h
  hmacOnly h := nomatch h

theorem length_hmacKey (P : Primitives) (h : Nat) (key : Bytes) : (hmacKey P h key).length = P.hashBlock h := by
  have hs := P.hash_sizes h
  have hl : (P.hash h key).length = P.hashDigest h := P.hashFinal_length _ _
  unfold hmacKey
  split <;> simp only [List.length_append, length_zeros] <;> omega

theorem length_hmacIpad (P : Primitives) (h : Nat) (key : Bytes) : (hmacIpad P h key).length = P.hashBlock h := by
  simp [hmacIpad, length_hmacKey]

theorem length_hmacOpad (P : Primitives) (h : Nat) (key : Bytes) : (hmacOpad P h key).length = P.hashBlock h := by
  simp [hmacOpad, length_hmacKey]

theorem openHmac_good (P : Primitives) (hw : HwConfig) {h : Nat} (key : Bytes) (hh : h < hw.nhash) :
    (Slot.openHmac P h key).Good P hw where
  rWidth := rfl
  ipadWidth := length_padTo _ _
  opadWidth := length_padTo _ _
  kindNone := ⟨nofun, nofun⟩
  freeCleared h := nomatch h
  finalizedCleared h := nomatch h
  modeKey h := nomatch h
  modeBuffer h := nomatch h
  modeReg h := nomatch h
  modeEcb h := nomatch h
  modeOnly h := nomatch h
  hmacHash _ := hh
  hmacState _ _ := rfl
  hmacPads _ :=
    ⟨padTo_take_padTo (length_hmacIpad P h key) (P.hash_sizes h).2.2,
      padTo_take_padTo (length_hmacOpad P h key) (P.hash_sizes h).2.2⟩
  hmacOnly _ := ⟨rfl, rfl, rfl⟩

/-- The padded keys of a fresh HMAC context, as its later commands read them. -/
theorem openHmac_opad (P : Primitives) (h : Nat) (key : Bytes) :
    (Slot.openHmac P h key).opad.take (P.hashBlock h) = hmacOpad P h key :=
  take_padTo (length_hmacOpad P h key) (P.hash_sizes h).2.2

theorem finalized_good (P : Primitives) (hw : HwConfig) {sl : Slot} (h : sl.Good P hw) (hk : sl.kind ≠ .none) :
    { sl.secretCleared with st := .finalized }.Good P hw where
  rWidth := rfl
  ipadWidth := rfl
  opadWidth := rfl
  kindNone := ⟨fun h => absurd h hk, nofun⟩
  freeCleared h := nomatch h
  finalizedCleared _ := rfl
  modeKey _ h := nomatch h
  modeBuffer _ := blockBytes_pos sl.alg
  modeReg _ := by
    show padTo bmax ((zeros bmax).take _) = zeros bmax
    rw [take_zeros, padTo_zeros]
  modeEcb _ _ := rfl
  modeOnly hm := ⟨(h.modeOnly hm).1, rfl, rfl, rfl⟩
  hmacHash hm := h.hmacHash hm
  hmacState _ h := nomatch h
  hmacPads _ := by
    constructor <;> (show padTo hbmax ((zeros hbmax).take _) = zeros hbmax) <;> rw [take_zeros, padTo_zeros]
  hmacOnly _ := ⟨rfl, rfl, rfl⟩

theorem feed_good (P : Primitives) (hw : HwConfig) {sl : Slot} (h : sl.Good P hw) (hk : sl.kind = .hmac)
    (hst : sl.st = .active) (data : Bytes) : (sl.feed P data).Good P hw where
  rWidth := h.rWidth
  ipadWidth := h.ipadWidth
  opadWidth := h.opadWidth
  kindNone := h.kindNone
  freeCleared hf := nomatch hst.symm.trans hf
  finalizedCleared hf := nomatch hst.symm.trans hf
  modeKey hm := nomatch hk.symm.trans hm
  modeBuffer hm := nomatch hk.symm.trans hm
  modeReg hm := nomatch hk.symm.trans hm
  modeEcb hm := nomatch hk.symm.trans hm
  modeOnly hm := nomatch hk.symm.trans hm
  hmacHash := h.hmacHash
  hmacState _ _ := rfl
  hmacPads := h.hmacPads
  hmacOnly := h.hmacOnly

/-- In a good slot of kind MODE or HMAC, not FINALIZED is ACTIVE. -/
theorem active_of_not_finalized {P : Primitives} {hw : HwConfig} {sl : Slot} (h : sl.Good P hw)
    (hk : sl.kind ≠ .none) (hf : sl.st ≠ .finalized) : sl.st = .active := by
  cases hst : sl.st with
  | free => exact absurd (h.kindNone.2 hst) hk
  | active => rfl
  | finalized => exact absurd hst hf

/-- The register block of ECB never changes. -/
theorem runBlocks_ecb_reg (E D : Bytes → Bytes) (d : Dir) (B n : Nat) (R stream : Bytes) :
    (runBlocks (blockStep E D .ecb d) B n R stream).2.1 = R := by
  induction n generalizing stream with
  | zero => rfl
  | succ n ih =>
    rw [runBlocks_succ]
    have : (blockStep E D .ecb d R (stream.take B)).2 = R := by cases d <;> rfl
    simp only [this, ih]

theorem absorb_good (P : Primitives) (hw : HwConfig) {sl : Slot} (h : sl.Good P hw) (hk : sl.kind = .mode)
    (hst : sl.st = .active) (data : Bytes) : (sl.absorb P data).1.Good P hw := by
  have hB : 0 < sl.blockLen := blockBytes_pos sl.alg
  have hR := (runBlocks_length _ _ (slotStep_length P sl) _ sl.reg _ (length_reg h.rWidth) (fullBlocks_le sl data)).2
  rw [absorb_slot]
  exact {
    rWidth := length_padTo _ _
    ipadWidth := h.ipadWidth
    opadWidth := h.opadWidth
    kindNone := h.kindNone
    freeCleared := fun hf => nomatch hst.symm.trans hf
    finalizedCleared := fun hf => nomatch hst.symm.trans hf
    modeKey := h.modeKey
    modeBuffer := fun _ => by
      show ((sl.bbuf ++ data).drop _).length < sl.blockLen
      rw [List.length_drop, List.length_append, Slot.fullBlocks, Slot.nb]
      have h1 := Nat.div_add_mod (sl.bbuf.length + data.length) sl.blockLen
      have h2 := Nat.mod_lt (sl.bbuf.length + data.length) hB
      rw [Nat.mul_comm] at h1
      omega
    modeReg := fun _ => padTo_take_padTo hR (blockBytes_le_bmax sl.alg)
    modeEcb := fun _ hm => by
      show padTo bmax (runBlocks (sl.step P) _ _ _ _).2.1 = zeros bmax
      have hm' : sl.mode = .ecb := hm
      rw [Slot.step, hm', runBlocks_ecb_reg, Slot.reg, h.modeEcb hk hm', take_zeros, padTo_zeros]
    modeOnly := h.modeOnly
    hmacHash := fun hm => nomatch hk.symm.trans hm
    hmacState := fun hm => nomatch hk.symm.trans hm
    hmacPads := fun hm => nomatch hk.symm.trans hm
    hmacOnly := fun hm => nomatch hk.symm.trans hm }

end Sys2Proof.Machine
end

