-- ==== Sys2Proof/Laws/Memory.lean ====
section
/-! SUPPORT. The data buffer: read after write, and every write keeps the canonical form. -/

namespace Sys2Proof.Machine

theorem Memory.lookup_store (m : Memory) (a : Nat) (v : Byte) (k : Nat) :
    (Memory.store m a v).lookup k = if a = k then some v else m.lookup k := by
  induction m with
  | nil => rfl
  | cons c m ih =>
    obtain ⟨j, b⟩ := c
    by_cases h1 : a < j
    · simp [Memory.store, h1, Memory.lookup]
    · by_cases h2 : a = j
      · subst h2
        by_cases h3 : a = k <;> simp [Memory.store, Memory.lookup, h3]
      · by_cases h3 : j = k
        · subst h3
          simp [Memory.store, h1, h2, Memory.lookup]
        · simp [Memory.store, h1, h2, Memory.lookup, h3, ih]

theorem Memory.lookup_storeBytes_outside (bs : Bytes) (m : Memory) (off a : Nat)
    (h : a < off ∨ off + bs.length ≤ a) : (Memory.storeBytes m off bs).lookup a = m.lookup a := by
  induction bs generalizing m off with
  | nil => rfl
  | cons b bs ih =>
    rw [List.length_cons] at h
    rw [Memory.storeBytes, ih _ _ (by omega), Memory.lookup_store, if_neg (by omega)]

theorem Memory.lookup_storeBytes_inside (bs : Bytes) (m : Memory) (off i : Nat) (h : i < bs.length) :
    (Memory.storeBytes m off bs).lookup (off + i) = some (bs.getD i 0) := by
  induction bs generalizing m off i with
  | nil => exact absurd h (Nat.not_lt_zero i)
  | cons b bs ih =>
    cases i with
    | zero =>
      rw [Memory.storeBytes, Memory.lookup_storeBytes_outside _ _ _ _ (by omega), Memory.lookup_store]
      simp
    | succ i =>
      rw [Memory.storeBytes, show off + (i + 1) = off + 1 + i by omega, ih _ _ _ (by simpa using h)]
      simp

/-- The canonical form as a fact about every two neighbours. -/
theorem Memory.wf_iff_pairwise (m : Memory) : m.wf = true ↔ m.Pairwise fun c d => c.1 < d.1 := by
  induction m with
  | nil => simp [Memory.wf]
  | cons c m ih =>
    cases m with
    | nil => simp [Memory.wf]
    | cons d m =>
      simp only [Memory.wf, Bool.and_eq_true, decide_eq_true_eq, ih, List.pairwise_cons, List.mem_cons,
        forall_eq_or_imp]
      constructor
      · rintro ⟨h, hd, hm⟩
        exact ⟨⟨h, fun e he => Nat.lt_trans h (hd e he)⟩, hd, hm⟩
      · rintro ⟨⟨h, -⟩, hd, hm⟩
        exact ⟨h, hd, hm⟩

theorem Memory.mem_store {m : Memory} {a : Nat} {v : Byte} {c : Host.Cell} (h : c ∈ Memory.store m a v) :
    c = (a, v) ∨ c ∈ m := by
  induction m with
  | nil => simpa [Memory.store] using h
  | cons d m ih =>
    obtain ⟨j, b⟩ := d
    simp only [Memory.store] at h
    split at h
    · simpa using h
    · split at h
      · rcases List.mem_cons.1 h with h | h
        · exact .inl h
        · exact .inr (List.mem_cons_of_mem _ h)
      · rcases List.mem_cons.1 h with h | h
        · exact .inr (h ▸ List.mem_cons_self)
        · exact (ih h).imp id (List.mem_cons_of_mem _)

theorem Memory.wf_store {m : Memory} (h : m.wf = true) (a : Nat) (v : Byte) : (Memory.store m a v).wf = true := by
  rw [Memory.wf_iff_pairwise] at h ⊢
  induction m with
  | nil => simp [Memory.store]
  | cons d m ih =>
    obtain ⟨j, b⟩ := d
    obtain ⟨hd, hm⟩ := List.pairwise_cons.1 h
    simp only [Memory.store]
    split
    · next hlt =>
      refine List.pairwise_cons.2 ⟨fun c hc => ?_, h⟩
      rcases List.mem_cons.1 hc with rfl | hc
      · exact hlt
      · exact Nat.lt_trans hlt (hd c hc)
    · split
      · next heq => subst heq; exact List.pairwise_cons.2 ⟨hd, hm⟩
      · refine List.pairwise_cons.2 ⟨fun c hc => ?_, ih hm⟩
        rcases Memory.mem_store hc with rfl | hc
        · simp only; omega
        · exact hd c hc

theorem Memory.wf_storeBytes {m : Memory} (h : m.wf = true) (off : Nat) (bs : Bytes) :
    (Memory.storeBytes m off bs).wf = true := by
  induction bs generalizing m off with
  | nil => exact h
  | cons b bs ih => exact ih (Memory.wf_store h off b) (off + 1)

theorem Memory.below_storeBytes {n : Nat} {m : Memory} (h : m.below n = true) (off : Nat) (bs : Bytes)
    (hb : bs = [] ∨ off + bs.length ≤ n) : (Memory.storeBytes m off bs).below n = true := by
  induction bs generalizing m off with
  | nil => exact h
  | cons b bs ih =>
    have hb' : off + (bs.length + 1) ≤ n := by simpa using hb
    refine ih ?_ (off + 1) (.inr (by omega))
    simp only [Memory.below, List.all_eq_true, decide_eq_true_eq] at h ⊢
    intro c hc
    rcases Memory.mem_store hc with rfl | hc
    · simp only; omega
    · exact h c hc

@[simp] theorem Memory.storeBytes_nil (m : Memory) (off : Nat) : m.storeBytes off [] = m := rfl

end Sys2Proof.Machine
end

