-- ==== Sys2Proof/Laws/Ops.lean ====
section
/-! SUPPORT. What the shared operations do to DBUF as it is read. -/

namespace Sys2Proof.Machine

/-- Storing bytes in DBUF, as read byte by byte. -/
theorem writesExactly_of_store {s t : State} {off : Nat} {out : Bytes} (hd : t.dbuf = s.dbuf.storeBytes off out)
    (hn : t.draws = s.draws) : WritesExactly s t off out := by
  constructor
  · intro a h
    simp only [State.byteAt, hd, hn, Memory.lookup_storeBytes_outside _ _ _ _ h]
  · intro i h
    simp only [State.byteAt, hd, Memory.lookup_storeBytes_inside _ _ _ _ h, Option.getD_some]

theorem dbufUnchanged_of_eq {s t : State} (hd : t.dbuf = s.dbuf) (hn : t.draws = s.draws) : DbufUnchanged s t := by
  intro a
  simp only [State.byteAt, hd, hn]

/-- What a command that ends with `done` writes to DBUF. -/
theorem finish_done_writes (s : State) (n : Nat) (slots : List Slot) (off : Nat) (out : Bytes) :
    WritesExactly s (s.finish (.done n slots off out)) off out :=
  writesExactly_of_store rfl rfl

/-- A command that ends with an error writes nothing to DBUF. -/
theorem raise_dbufUnchanged (s : State) (code : StatusCode) : DbufUnchanged s (s.raise code) :=
  dbufUnchanged_of_eq rfl rfl

/-- Every command keeps the frame of `CommandFrame`, however it ends. -/
theorem finish_frame (s : State) (c : Completion) : CommandFrame s (s.finish c) := by
  cases c <;> exact ⟨rfl, rfl, rfl, rfl, rfl, rfl, rfl⟩

end Sys2Proof.Machine
end

