-- ==== Sys2Proof/Laws/PerInstr.lean ====
section
/-! SUPPORT. What holds of every instruction as syntax, one lemma per constructor. Family `EncodingFits`: the command
word of a well-formed instruction carries its opcode and no bit outside the opcode's `USED_MASK` (30_encoding.md rules
R101, R104). -/

namespace Sys2Proof.Laws

theorem or_and (x y m : Word) : (x ||| y) &&& m = (x &&& m) ||| (y &&& m) := BitVec.and_or_distrib_right

theorem or_low (x y : Word) : (x ||| y).extractLsb' 0 8 = x.extractLsb' 0 8 ||| y.extractLsb' 0 8 :=
  BitVec.extractLsb'_or

/-- A 4-bit field placed at bit 8 lies in bits 11:8. -/
theorem placed_ctx {c : Nat} (h : fits4 c = true) :
    placed c 8 &&& ~~~0x00000F00#32 = 0 ∧ (placed c 8).extractLsb' 0 8 = 0 := by
  simp only [fits4, decide_eq_true_eq] at h
  interval_cases c <;> decide

/-- A 4-bit field placed at bit 12 lies in bits 15:12. -/
theorem placed_ctx2 {c : Nat} (h : fits4 c = true) :
    placed c 12 &&& ~~~0x0000F000#32 = 0 ∧ (placed c 12).extractLsb' 0 8 = 0 := by
  simp only [fits4, decide_eq_true_eq] at h
  interval_cases c <;> decide

/-- A 4-bit field placed at bit 24 lies in bits 27:24. -/
theorem placed_hash {c : Nat} (h : fits4 c = true) :
    placed c 24 &&& ~~~0x0F000000#32 = 0 ∧ (placed c 24).extractLsb' 0 8 = 0 := by
  simp only [fits4, decide_eq_true_eq] at h
  interval_cases c <;> decide

/-- What lies inside a smaller mask lies inside a larger one. -/
theorem inside_mono {x m m' : Word} (h : x &&& ~~~m = 0) (hm : ~~~m &&& ~~~m' = ~~~m') : x &&& ~~~m' = 0 := by
  rw [← hm, ← BitVec.and_assoc, h]
  exact BitVec.zero_and

end Sys2Proof.Laws

namespace Sys2Proof.Laws.EncodingFits

def Statement (i : Instr) : Prop :=
  WellFormed i = true →
    encode i &&& ~~~usedMask (opcodeOfInstr i) = 0 ∧ (encode i).extractLsb' 0 8 = (opcodeOfInstr i).code

theorem nop : Statement .nop := fun _ => by decide

theorem modeInit (c : Nat) (a : AlgField) (m : Mode) (d : Dir) (v : Bool) : Statement (.modeInit c a m d v) := by
  intro h
  obtain ⟨h1, h2⟩ := placed_ctx h
  have h3 := inside_mono (m' := usedMask .modeInit) h1 (by decide)
  simp only [encode, opcodeOfInstr, or_and, or_low, h2, h3]
  constructor <;> cases a <;> cases m <;> cases d <;> cases v <;> decide

/-- The shape of the commands that name one slot and nothing else. -/
theorem ctxOnly {c : Nat} (h : fits4 c = true) (o : Opcode) (hm : ~~~0x00000F00#32 &&& ~~~usedMask o = ~~~usedMask o)
    (ho : opcodeWord o &&& ~~~usedMask o = 0) (hl : (opcodeWord o).extractLsb' 0 8 = o.code) :
    (opcodeWord o ||| placed c 8) &&& ~~~usedMask o = 0 ∧
      (opcodeWord o ||| placed c 8).extractLsb' 0 8 = o.code := by
  obtain ⟨h1, h2⟩ := placed_ctx h
  rw [or_and, or_low, h2, inside_mono h1 hm, ho, hl]
  exact ⟨BitVec.or_zero, BitVec.or_zero⟩

theorem modeUpdate (c : Nat) : Statement (.modeUpdate c) :=
  fun h => ctxOnly h .modeUpdate (by decide) (by decide) (by decide)

theorem modeFinal (c : Nat) : Statement (.modeFinal c) :=
  fun h => ctxOnly h .modeFinal (by decide) (by decide) (by decide)

theorem hmacInit (c h : Nat) : Statement (.hmacInit c h) := by
  intro hw
  obtain ⟨hc, hh⟩ := Bool.and_eq_true_iff.1 hw
  obtain ⟨h1, h2⟩ := placed_hash hh
  obtain ⟨h3, h4⟩ := ctxOnly hc .hmacInit (by decide) (by decide) (by decide)
  have h5 := inside_mono (m' := usedMask .hmacInit) h1 (by decide)
  simp only [encode, opcodeOfInstr, or_and, or_low] at h3 h4 ⊢
  rw [h3, h4, h2, h5]
  exact ⟨BitVec.or_zero, BitVec.or_zero⟩

theorem hmacUpdate (c : Nat) : Statement (.hmacUpdate c) :=
  fun h => ctxOnly h .hmacUpdate (by decide) (by decide) (by decide)

theorem hmacFinal (c : Nat) : Statement (.hmacFinal c) :=
  fun h => ctxOnly h .hmacFinal (by decide) (by decide) (by decide)

theorem hmacCopy (c c2 : Nat) : Statement (.hmacCopy c c2) := by
  intro hw
  obtain ⟨hc, hh⟩ := Bool.and_eq_true_iff.1 hw
  obtain ⟨h1, h2⟩ := placed_ctx2 hh
  obtain ⟨h3, h4⟩ := ctxOnly hc .hmacCopy (by decide) (by decide) (by decide)
  have h5 := inside_mono (m' := usedMask .hmacCopy) h1 (by decide)
  simp only [encode, opcodeOfInstr, or_and, or_low] at h3 h4 ⊢
  rw [h3, h4, h2, h5]
  exact ⟨BitVec.or_zero, BitVec.or_zero⟩

theorem ctxRelease (c : Nat) : Statement (.ctxRelease c) :=
  fun h => ctxOnly h .ctxRelease (by decide) (by decide) (by decide)

end Sys2Proof.Laws.EncodingFits
end

