-- ==== Sys2Proof/Tests/Slice0.lean ====
section
/-! SUPPORT. The model's own tests, with values from the spec's worked examples and vectors (95_test_vectors.md), and a
witness for the hypotheses of every obligation that has some. The stand-in primitives are those of its section 1. -/

namespace Sys2Proof.Tests

open Sys2Proof Sys2Proof.Machine

/-! Stand-in primitives (95_test_vectors.md section 1) -/

/-- The key bytes the stand-in cipher uses: the first `B` of them. -/
def keyBlock (alg : Alg) (k : Bytes) : Bytes := padTo (blockBytes alg) k

def rotLeft (x : Bytes) : Bytes := x.drop 1 ++ x.take 1

def rotRight (x : Bytes) : Bytes := x.drop (x.length - 1) ++ x.take (x.length - 1)

theorem length_rotLeft (x : Bytes) : (rotLeft x).length = x.length := by
  simp only [rotLeft, List.length_append, List.length_drop, List.length_take]; omega

theorem length_rotRight (x : Bytes) : (rotRight x).length = x.length := by
  simp only [rotRight, List.length_append, List.length_drop, List.length_take]; omega

/-- The toy hash TH's digest. -/
def thFinal (s : Bytes) : Bytes := [s.foldl (· ^^^ ·) 0, s.foldl (· + ·) 0 + BitVec.ofNat 8 s.length]

/-- RS for both ciphers, TH for every hash index. -/
def standIn : Primitives where
  encrypt alg k x := rotLeft (xorBytes x (keyBlock alg k))
  decrypt alg k y := xorBytes (rotRight y) (keyBlock alg k)
  encrypt_length _ _ _ h := by simp [length_rotLeft, keyBlock, h]
  decrypt_length _ _ _ h := by simp [length_rotRight, keyBlock, h]
  hashBlock _ := 4
  hashDigest _ := 2
  hash_sizes _ := by decide
  hashInit _ := []
  hashUpdate _ s a := s ++ a
  hashFinal _ s := thFinal s
  hashFinal_length _ _ := rfl

/-! Small states -/

/-- The run of `n` bytes from `a` up. -/
def upFrom (a n : Nat) : Bytes := (List.range n).map fun i => BitVec.ofNat 8 (a + i)

/-- Fixture F's key and IV. -/
def keyK : Bytes := upFrom 0x01 24

def ivA : Bytes := upFrom 0xa0 8

def block1 : Bytes := [0x00, 0x10, 0x20, 0x30, 0x40, 0x50, 0x60, 0x70]

def block2 : Bytes := [0x80, 0x90, 0xa0, 0xb0, 0xc0, 0xd0, 0xe0, 0xf0]

/-- Fixture F, and the input of setup U at 0x100. -/
def bufferF : Memory :=
  Memory.storeBytes (Memory.storeBytes (Memory.storeBytes [] 0x000 keyK) 0x020 ivA) 0x100 (block1 ++ [0x80, 0x90, 0xa0])

/-- The reset machine with the two first slots and DBUF given, running a command with the four arguments given. -/
def running (sl0 sl1 : Slot) (m : Memory) (a0 a1 a2 a3 : Word) : State :=
  { State.reset with
    status := { busy := true, done := false, overrun := false, err := .ok }
    phase := .busy
    cmdl := { word := 0, args := { arg0 := a0, arg1 := a1, arg2 := a2, arg3 := a3 } }
    slots := sl0 :: sl1 :: List.replicate 6 Slot.cleared
    dbuf := m }

/-- Setup U's slot: TDES, key K, IV a0..a7. -/
def slotU (m : Mode) (d : Dir) : Slot := Slot.openMode .tdes m d keyK ivA

/-- Setup H's slot: key 0b 0c under TH. -/
def slotH : Slot := Slot.openHmac standIn 0 [0x0b, 0x0c]

/-- A FINALIZED mode slot. -/
def slotDone : Slot := { (slotU .cbc .enc).secretCleared with st := .finalized }

/-- A FINALIZED HMAC slot. -/
def slotHDone : Slot := { slotH.secretCleared with st := .finalized }

/-! WellFormed refuses an index that does not fit its field -/

theorem test_wf_refuses_ctx16 :
    WellFormed (.modeInit 16 .aes .ecb .enc false) = false ∧ WellFormed (.modeUpdate 16) = false ∧
    WellFormed (.modeFinal 16) = false ∧ WellFormed (.hmacInit 16 0) = false ∧ WellFormed (.hmacUpdate 16) = false ∧
    WellFormed (.hmacFinal 16) = false ∧ WellFormed (.hmacCopy 16 0) = false ∧
    WellFormed (.ctxRelease 16) = false := by decide

theorem test_wf_refuses_hash16 : WellFormed (.hmacInit 0 16) = false := by decide

theorem test_wf_refuses_ctx2_16 : WellFormed (.hmacCopy 0 16) = false := by decide

theorem test_wf_accepts_15 :
    WellFormed .nop = true ∧ WellFormed (.hmacInit 15 15) = true ∧ WellFormed (.hmacCopy 15 15) = true := by decide

/-! Decoding (vectors V-E1 to V-E18) -/

/-- Bits 31 down to 0: reserved, HASH, reserved, IVP, DIR, ALG, MODE, CTX2, CTX, OPC (R101). -/
theorem test_decode_mode_init :
    decode 0b0000_0000_00_1_1_01_01_0000_0001_00000001#32 = .instr (.modeInit 1 .tdes .cbc .dec true) ∧
    decode 0x00220201 = .instr (.modeInit 2 .aes .cfb .enc true) ∧
    decode 0x00140001 = .instr (.modeInit 0 .tdes .ecb .dec false) ∧
    decode 0x00230001 = .instr (.modeInit 0 .aes .ofb .enc true) ∧
    decode 0x00290001 = .instr (.modeInit 0 .reserved2 .cbc .enc true) := by decide

theorem test_decode_mode_update : decode 0b0000_0000_00_0_0_00_00_0000_0001_00000010#32 = .instr (.modeUpdate 1) := by
  decide

theorem test_decode_mode_final : decode 0b0000_0000_00_0_0_00_00_0000_0001_00000011#32 = .instr (.modeFinal 1) := by
  decide

theorem test_decode_hmac_init :
    decode 0b0000_0001_00_0_0_00_00_0000_0000_00010001#32 = .instr (.hmacInit 0 1) ∧
    decode 0x00000011 = .instr (.hmacInit 0 0) := by decide

theorem test_decode_hmac_update : decode 0b0000_0000_00_0_0_00_00_0000_0001_00010010#32 = .instr (.hmacUpdate 1) := by
  decide

theorem test_decode_hmac_final : decode 0b0000_0000_00_0_0_00_00_0000_0001_00010011#32 = .instr (.hmacFinal 1) := by
  decide

theorem test_decode_hmac_copy :
    decode 0b0000_0000_00_0_0_00_00_1000_0000_00010100#32 = .instr (.hmacCopy 0 8) ∧
    decode 0x00001014 = .instr (.hmacCopy 0 1) := by decide

theorem test_decode_ctx_release :
    decode 0b0000_0000_00_0_0_00_00_0000_1000_00100000#32 = .instr (.ctxRelease 8) ∧
    decode 0x00000120 = .instr (.ctxRelease 1) := by decide

theorem test_decode_nop : decode 0x00000000 = .instr .nop := by decide

theorem test_decode_rejects :
    decode 0x00000004 = .reject .unknownOpcode ∧ decode 0x00000100 = .reject .reservedBits ∧
    decode 0x00410001 = .reject .reservedBits ∧ decode 0x00011014 = .reject .reservedBits ∧
    decode 0x00001020 = .reject .reservedBits := by decide

theorem test_decode_table_word :
    decodeTableWord 32 0x00250001 = some (.modeInit 0 .tdes .cbc .enc true) ∧ decodeTableWord 32 0x00000004 = none := by
  decide

/-- The words of vectors V-E3 and V-E11, assembled (R107). -/
theorem test_encode :
    encode (.modeInit 1 .tdes .cbc .dec true) = 0x00350101 ∧ encode (.hmacCopy 0 8) = 0x00008014 := by decide

/-! The bus (vectors V-B1 to V-B17) -/

/-- A bus state: reset, with DBUF 0..3 = 11 22 33 44. -/
def busState : State := { State.reset with dbuf := Memory.storeBytes [] 0 [0x11, 0x22, 0x33, 0x44] }

theorem test_register_reads :
    (State.reset.access (.read 0x004 4)).2 = .data 0x00000000 ∧
    (State.reset.access (.read 0x01C 4)).2 = .data 0x01000108 ∧
    (State.reset.access (.read 0x018 4)).2 = .data 0 ∧ (State.reset.access (.read 0x000 4)).2 = .data 0 := by decide

theorem test_dbuf_reads :
    (busState.access (.read 0x1000 4)).2 = .data 0x44332211 ∧ (busState.access (.read 0x1002 2)).2 = .data 0x4433 := by
  decide

theorem test_bus_errors :
    (busState.access (.read 0x1001 2)).2 = .busError ∧ (busState.access (.read 0x1000 8)).2 = .busError ∧
    (busState.access (.read 0x002 4)).2 = .busError ∧ (busState.access (.read 0x020 4)).2 = .busError ∧
    (busState.access (.read 0x2000 1)).2 = .busError := by decide

theorem test_dbuf_writes :
    (State.reset.access (.write 0x1000 4 0xdeadbeef)).1.memRead 0 4 = [0xef, 0xbe, 0xad, 0xde] ∧
    ((State.reset.access (.write 0x1000 4 0xdeadbeef)).1.access (.write 0x1000 2 0x0102)).1.memRead 0 4 =
      [0x02, 0x01, 0xad, 0xde] := by decide

/-- V-B14: a `CMD` write while a `nop` runs is dropped. -/
theorem test_cmd_write_while_busy :
    ((State.reset.acceptCmd 0).access (.write 0x000 4 0x20)).1.status.word = 0x00000005 ∧
    ((State.reset.acceptCmd 0).access (.write 0x000 4 0x20)).1.cmdl.word = 0 ∧
    ((State.reset.acceptCmd 0).access (.read 0x1000 1)).2 = .busError := by decide

/-- V-B16, V-B17. -/
theorem test_overrun_clear :
    (StatusReg.hostWrite ⟨false, true, true, .ok⟩ 0xFFFFFFFB).word = 0x00000006 ∧
    (StatusReg.hostWrite ⟨false, true, true, .ok⟩ 0x00000004).word = 0x00000002 := by decide

/-! The commands, one step each -/

/-- V-X5: after an error, `nop` clears `ERR`. -/
theorem test_nop :
    let s := running slotDone slotH [] 0 0 0 0
    (s.finish (nop s)).status.word = 0x00000002 ∧ (s.finish (nop s)).slots = s.slots := by decide

/-- V-X1. -/
theorem test_ctx_release :
    let s := running (slotU .cbc .enc) Slot.cleared bufferF 0 0 0 0
    (s.finish (ctxRelease 0 s)).status.word = 0x00000002 ∧ (s.finish (ctxRelease 0 s)).slot 0 = Slot.cleared := by
  decide

/-- V-X3. -/
theorem test_ctx_release_no_slot :
    let s := running Slot.cleared Slot.cleared [] 0 0 0 0
    (s.finish (ctxRelease 8 s)).status.word = 0x00001102 := by decide

/-- V-I1. -/
theorem test_mode_init :
    let s := running Slot.cleared Slot.cleared bufferF 0x000 24 0x020 8
    (s.finish (modeInit 0 .tdes .cbc .enc true s)).slot 0 =
      { Slot.cleared with
        st := .active, kind := .mode, alg := .tdes, mode := .cbc, dir := .enc, key := upFrom 1 24
        r := upFrom 0xa0 8 ++ zeros 8 } := by decide

/-- V-I4, V-I5, V-I10, V-I12, V-I13, V-I15, V-I17: one code for each check. -/
theorem test_mode_init_errors :
    let s := fun a0 a1 a2 a3 => running Slot.cleared Slot.cleared bufferF a0 a1 a2 a3
    modeInit 0 .tdes .cbc .enc true (s 0xFF0 24 0x020 8) = .raised .bufferRange ∧
    modeInit 0 .tdes .cbc .enc true (s 0x000 24 0xFFC 8) = .raised .bufferRange ∧
    modeInit 0 .tdes .ecb .enc true (s 0x000 24 0x020 8) = .raised .unsupportedMode ∧
    modeInit 0 .tdes .cbc .enc false (s 0x000 24 0x020 8) = .raised .invalidIVLength ∧
    modeInit 0 .tdes .cfb .enc true (s 0x000 24 0x020 7) = .raised .invalidIVLength ∧
    modeInit 0 .tdes .ecb .enc true (s 0x000 16 0x020 8) = .raised .invalidKeyLength ∧
    modeInit 0 .reserved2 .cbc .enc true (s 0x000 24 0x020 8) = .raised .unsupportedMode := by decide

/-- V-U2. -/
theorem test_mode_update :
    let s := running (slotU .cbc .enc) Slot.cleared bufferF 0x100 11 0x200 0
    let t := s.finish (modeUpdate standIn 0 s)
    t.status.word = 0x00000002 ∧ t.resultLen = 8 ∧
      (t.slot 0).reg = [0xb3, 0x81, 0x97, 0xe1, 0xf3, 0xc1, 0xdf, 0xa1] ∧ (t.slot 0).bbuf = [0x80, 0x90, 0xa0] ∧
      t.memRead 0x200 8 = [0xb3, 0x81, 0x97, 0xe1, 0xf3, 0xc1, 0xdf, 0xa1] := by decide

/-- V-U3, V-U4, V-U7: the output region counts whole blocks only, and no sum wraps. -/
theorem test_mode_update_ranges :
    let s := fun a0 a1 a2 a3 => running (slotU .cbc .enc) Slot.cleared bufferF a0 a1 a2 a3
    modeUpdate standIn 0 (s 0x100 11 0xFFC 0) = .raised .bufferRange ∧
    ((s 0x100 3 0xFFFF 0).finish (modeUpdate standIn 0 (s 0x100 3 0xFFFF 0))).status.word = 0x00000002 ∧
    modeUpdate standIn 0 (s 0xFFFFFFF0 0x20 0x200 0) = .raised .bufferRange := by decide

/-- The slot of setup C. -/
def slotC : Slot :=
  { (slotU .cfb .enc).withReg [0xa3, 0xb1, 0x87, 0x91, 0xe3, 0xf1, 0xcf, 0xd1] with bbuf := [0x80, 0x90, 0xa0] }

/-- V-U13. -/
theorem test_mode_final :
    let s := running slotC Slot.cleared bufferF 0 0 0x300 0
    let t := s.finish (modeFinal standIn 0 s)
    t.status.word = 0x00000002 ∧ t.resultLen = 3 ∧ t.memRead 0x300 3 = [0x33, 0x14, 0x35] ∧
      t.slot 0 = { Slot.cleared with st := .finalized, kind := .mode, alg := .tdes, mode := .cfb, dir := .enc } := by
  decide

/-- V-U9, V-U11, V-U14, V-H8. -/
theorem test_mode_final_errors :
    let s := fun sl a2 => running sl Slot.cleared bufferF 0 0 a2 0
    modeFinal standIn 0 (s { slotU .cbc .enc with bbuf := [0x80, 0x90, 0xa0] } 0x300) = .raised .invalidBlockLength ∧
    modeFinal standIn 0 (s slotDone 0x300) = .raised .contextFinalized ∧
    modeFinal standIn 0 (s slotC 0xFFE) = .raised .bufferRange ∧
    modeFinal standIn 0 (s slotH 0x300) = .raised .badContext := by decide

/-- V-H1. -/
theorem test_hmac_init :
    let s := running Slot.cleared Slot.cleared bufferF 0x000 2 0 0
    let t := s.finish (hmacInit standIn 0 0 s)
    (t.slot 0).st = .active ∧ (t.slot 0).kind = .hmac ∧ (t.slot 0).ipad.take 4 = [0x37, 0x34, 0x36, 0x36] ∧
      (t.slot 0).opad.take 4 = [0x5d, 0x5e, 0x5c, 0x5c] ∧ (t.slot 0).hs = some [0x37, 0x34, 0x36, 0x36] := by decide

/-- V-H2, V-H3, V-H4. -/
theorem test_hmac_init_errors :
    hmacInit standIn 0 1 (running Slot.cleared Slot.cleared bufferF 0 2 0 0) = .raised .unsupportedMode ∧
    hmacInit standIn 0 0 (running slotH Slot.cleared bufferF 0 2 0 0) = .raised .badContext ∧
    hmacInit standIn 0 0 (running Slot.cleared Slot.cleared [] 0xFFF 2 0 0) = .raised .bufferRange := by decide

/-- R185's example: the inner hash absorbs 61 62 63. -/
theorem test_hmac_update :
    let s := running slotH Slot.cleared (Memory.storeBytes [] 0x300 [0x61, 0x62, 0x63]) 0x300 3 0 0
    ((s.finish (hmacUpdate standIn 0 s)).slot 0).hs = some [0x3d, 0x3a, 0x36, 0x36, 0x61, 0x62, 0x63] := by decide

/-- V-H10, V-U16. -/
theorem test_hmac_update_errors :
    hmacUpdate standIn 0 (running slotHDone Slot.cleared [] 0 2 0 0) = .raised .contextFinalized ∧
    hmacUpdate standIn 0 (running (slotU .cbc .enc) Slot.cleared bufferF 0x100 3 0 0) = .raised .badContext := by decide

/-- V-H7. -/
theorem test_hmac_final :
    let s := running slotH Slot.cleared [] 0 0 0x300 0
    let t := s.finish (hmacFinal standIn 0 s)
    t.status.word = 0x00000002 ∧ t.resultLen = 2 ∧ t.memRead 0x300 2 = [0xe7, 0x53] ∧ t.slot 0 = slotHDone := by
  decide

/-- V-H6, V-H9. -/
theorem test_hmac_final_errors :
    hmacFinal standIn 0 (running slotH Slot.cleared [] 0 0 0xFFF 0) = .raised .bufferRange ∧
    hmacFinal standIn 0 (running slotHDone Slot.cleared [] 0 0 0x300 0) = .raised .contextFinalized := by decide

/-- V-H11. -/
theorem test_hmac_copy :
    let s := running slotH Slot.cleared [] 0 0 0 0
    ((s.finish (hmacCopy 0 1 s)).slot 1) = slotH ∧ ((s.finish (hmacCopy 0 1 s)).slot 0) = slotH := by decide

/-- V-H12, V-H13, V-H14, V-H15. -/
theorem test_hmac_copy_errors :
    hmacCopy 0 0 (running slotH Slot.cleared [] 0 0 0 0) = .raised .badContext ∧
    hmacCopy 0 1 (running slotH slotH [] 0 0 0 0) = .raised .badContext ∧
    hmacCopy 0 8 (running slotH Slot.cleared [] 0 0 0 0) = .raised .badContext ∧
    hmacCopy 0 1 (running slotHDone Slot.cleared [] 0 0 0 0) = .raised .contextFinalized := by decide

/-! The algorithms -/

/-- Two blocks of TDES under the stand-in, from register `R`: the output and the last register. -/
def twoBlocks (m : Mode) (d : Dir) (R : Bytes) : Bytes × Bytes :=
  let p := runBlocks (blockStep (standIn.encrypt .tdes keyK) (standIn.decrypt .tdes keyK) m d) 8 2 R (block1 ++ block2)
  (p.1, p.2.1)

/-- V-S1, V-S3, V-S5, V-S7. -/
theorem test_block_steps_encrypt :
    twoBlocks .ecb .enc (zeros 8) =
      ([0x12, 0x23, 0x34, 0x45, 0x56, 0x67, 0x78, 0x01, 0x92, 0xa3, 0xb4, 0xc5, 0xd6, 0xe7, 0xf8, 0x81], zeros 8) ∧
    twoBlocks .cbc .enc ivA =
      ([0xb3, 0x81, 0x97, 0xe1, 0xf3, 0xc1, 0xdf, 0xa1, 0x13, 0x34, 0x55, 0x36, 0x17, 0x38, 0x59, 0x32],
        [0x13, 0x34, 0x55, 0x36, 0x17, 0x38, 0x59, 0x32]) ∧
    twoBlocks .cfb .enc ivA =
      ([0xa3, 0xb1, 0x87, 0x91, 0xe3, 0xf1, 0xcf, 0xd1, 0x33, 0x14, 0x35, 0x56, 0x37, 0x18, 0x39, 0x52],
        [0x33, 0x14, 0x35, 0x56, 0x37, 0x18, 0x39, 0x52]) ∧
    twoBlocks .ofb .enc ivA =
      ([0xa3, 0xb1, 0x87, 0x91, 0xe3, 0xf1, 0xcf, 0xd1, 0x23, 0x34, 0x05, 0x16, 0x67, 0x78, 0x49, 0x52],
        [0xa3, 0xa4, 0xa5, 0xa6, 0xa7, 0xa8, 0xa9, 0xa2]) := by decide

/-- V-S2, V-S4, V-S6, V-S8. -/
theorem test_block_steps_decrypt :
    twoBlocks .ecb .dec (zeros 8) =
      ([0x71, 0x02, 0x13, 0x24, 0x35, 0x46, 0x57, 0x68, 0xf1, 0x82, 0x93, 0xa4, 0xb5, 0xc6, 0xd7, 0xe8], zeros 8) ∧
    twoBlocks .cbc .dec ivA =
      ([0xd1, 0xa3, 0xb1, 0x87, 0x91, 0xe3, 0xf1, 0xcf, 0xf1, 0x92, 0xb3, 0x94, 0xf5, 0x96, 0xb7, 0x98], block2) ∧
    twoBlocks .cfb .dec ivA =
      ([0xa3, 0xb1, 0x87, 0x91, 0xe3, 0xf1, 0xcf, 0xd1, 0x92, 0xb3, 0x94, 0xf5, 0x96, 0xb7, 0x98, 0xf1], block2) ∧
    twoBlocks .ofb .dec ivA =
      ([0xa3, 0xb1, 0x87, 0x91, 0xe3, 0xf1, 0xcf, 0xd1, 0x23, 0x34, 0x05, 0x16, 0x67, 0x78, 0x49, 0x52],
        [0xa3, 0xa4, 0xa5, 0xa6, 0xa7, 0xa8, 0xa9, 0xa2]) := by decide

/-- V-RT1: CFB over 13 bytes, as one input and as two. -/
theorem test_chunking :
    (slotU .cfb .enc).output standIn [upFrom 0x30 13] =
      [0x93, 0x90, 0x95, 0x92, 0x97, 0x94, 0x99, 0x96, 0xaa, 0xaf, 0xac, 0xa9, 0xae] ∧
    (slotU .cfb .enc).output standIn [upFrom 0x30 3, upFrom 0x33 10] =
      [0x93, 0x90, 0x95, 0x92, 0x97, 0x94, 0x99, 0x96, 0xaa, 0xaf, 0xac, 0xa9, 0xae] := by decide

/-- V-HM2, V-HM6, V-HM8, V-HM11: an empty key, a short one, one of the block length and a longer one. -/
theorem test_hmac_digests :
    ((Slot.openHmac standIn 0 []).feed standIn [0x61]).digest standIn = [0x5f, 0x15] ∧
    (slotH.feed standIn [0x61, 0x62, 0x63]).digest standIn = [0x70, 0xdc] ∧
    ((Slot.openHmac standIn 0 (upFrom 1 4)).feed standIn [0x61]).digest standIn = [0x59, 0x15] ∧
    ((Slot.openHmac standIn 0 (upFrom 1 5)).feed standIn [0x61]).digest standIn = [0x4a, 0x02] := by decide

/-! Witnesses: for each obligation with hypotheses, a concrete input that meets all of them, and for several clauses one
at a boundary of each -/

/-- An ACTIVE HMAC slot of this MOCE. -/
def hmacSlot0 : Slot := Slot.openHmac Config.primitives 0 [0x0b, 0x0c]

/-- A machine that runs the word `w`, with slot 0 an ACTIVE mode context, slot 1 an ACTIVE HMAC context and the other
slots FREE. -/
def demo (m : Mode) (w a0 a1 a2 a3 : Word) : State :=
  { running (slotU m .enc) hmacSlot0 bufferF a0 a1 a2 a3 with
    cmdl := { word := w, args := { arg0 := a0, arg1 := a1, arg2 := a2, arg3 := a3 } } }

theorem slotU_good (P : Primitives) (hw : HwConfig) {m : Mode} (d : Dir) (hm : m ≠ .ecb) : (slotU m d).Good P hw :=
  openMode_good P hw (by decide) (by decide) (fun h => absurd h hm)

theorem hmacSlot0_good : hmacSlot0.Good Config.primitives Config.hw := openHmac_good _ _ _ (by decide)

theorem demo_safe {m : Mode} (hm : m ≠ .ecb) (w a0 a1 a2 a3 : Word) : (demo m w a0 a1 a2 a3).Safe where
  hwLegal := show Config.hw.legal = true by decide
  slotCount := rfl
  slotsGood sl h := by
    rcases List.mem_cons.1 h with rfl | h
    · exact slotU_good _ _ _ hm
    · rcases List.mem_cons.1 h with rfl | h
      · exact hmacSlot0_good
      · rw [(List.mem_replicate.1 h).2]
        exact cleared_good _ _
  busyPhase := ⟨fun _ => rfl, fun _ => rfl⟩
  busyNotDone _ := rfl
  notDone _ := ⟨rfl, rfl⟩
  errNoResult h := absurd rfl h
  resultFits := Nat.zero_le _
  dbufCanonical := show bufferF.wf = true by decide
  dbufInside := show bufferF.below 4096 = true by decide

/-- The tail of setup C's slot has 3 bytes under every cipher. -/
theorem slotC_tail_length (P : Primitives) : (slotC.finalOutput P).length = 3 := by
  have h : (P.encrypt .tdes keyK slotC.reg).length = 8 := P.encrypt_length .tdes _ _ (by decide)
  show (xorBytes [0x80, 0x90, 0xa0] ((P.encrypt .tdes keyK slotC.reg).take 3)).length = 3
  simp [h]

theorem test_witness_DecodeInvertsEncode :
    WellFormed (.modeInit 15 .reserved3 .ofb .dec true) = true ∧ WellFormed (.hmacInit 15 15) = true := by decide

theorem test_witness_EncodeInvertsDecode : decode 0x0F000F11 = .instr (.hmacInit 15 15) := by decide

theorem test_witness_DecodeRejectsIllegalWords :
    (0x04#32).extractLsb' 0 8 ∉ [0x00#8, 0x01#8, 0x02#8, 0x03#8, 0x11#8, 0x12#8, 0x13#8, 0x14#8, 0x20#8] ∧
    (0xFF#32).extractLsb' 0 8 ∉ [0x00#8, 0x01#8, 0x02#8, 0x03#8, 0x11#8, 0x12#8, 0x13#8, 0x14#8, 0x20#8] ∧
    (0x80000000#32).extractLsb' 0 8 = Opcode.nop.code ∧ 0x80000000#32 &&& ~~~usedMask .nop ≠ 0 ∧
    (0x003F0F01#32).extractLsb' 0 8 = Opcode.modeInit.code ∧ 0x003F0F01#32 &&& ~~~usedMask .modeInit = 0 := by decide

theorem test_witness_StepRunsDecodedCommand :
    let s := demo .cbc 0x00000002 0x100 11 0x200 0
    s.phase = .busy ∧ decode s.cmdl.word = .instr (.modeUpdate 0) ∧ s.moves = [] ∧
      State.moves { s with moves := [.engine, .reset] } = .engine :: [.reset] := by decide

theorem test_witness_IllegalWordEndsWithBadCommand :
    let s := demo .cbc 0x00000004 0 0 0 0
    s.phase = .busy ∧ decode s.cmdl.word = .reject .unknownOpcode ∧ s.moves = [] ∧
      State.moves { s with moves := [.engine] } = .engine :: [] := by decide

theorem test_witness_IdleEngineTurnChangesNothing :
    State.reset.phase = .idle ∧ State.reset.moves = [] ∧
      State.moves { State.reset with moves := [.engine] } = .engine :: [] := by decide

theorem test_witness_StepPerformsHostAccess :
    State.moves { State.reset with moves := [.host (.read 0x01C 4), .engine] } = .host (.read 0x01C 4) :: [.engine] := by
  decide

theorem test_witness_AcceptedCmdWrite : State.reset.status.busy = false := by decide

theorem test_witness_CmdWriteWhileBusyIsDropped : (demo .cbc 0 0 0 0 0).status.busy = true := by decide

theorem test_witness_HwcfgWordFields :
    HwConfig.legal { nctx := 1, nhash := 1, dbufBytes := 16, base := 0 } = true ∧
    HwConfig.legal { nctx := 16, nhash := 16, dbufBytes := 4096, base := 0 } = true := by decide

/-- One access at each end of each clause's range, and what it answers: 0x01C completes and 0x020 does not, the last
word of DBUF completes and the byte after it does not, and an address below the base does not. -/
theorem test_witness_BusErrorsExactly :
    (State.reset.access (.read 0x01C 4)).2 ≠ .busError ∧ (State.reset.access (.read 0x020 4)).2 = .busError ∧
    (State.reset.access (.write 0xFFC 4 0)).2 = .busError ∧
    (State.reset.access (.write (0x1000 + 4092) 4 0)).2 = .written ∧
    (State.reset.access (.write (0x1000 + 4096) 1 0)).2 = .busError ∧
    (0x1FFF : Nat) < HwConfig.base { Config.hw with base := 0x2000 } := by decide

theorem test_witness_DbufLockedWhileBusy :
    (demo .cbc 0 0 0 0 0).status.busy = true ∧ 0 < (demo .cbc 0 0 0 0 0).hw.dbufBytes ∧
    4095 < (demo .cbc 0 0 0 0 0).hw.dbufBytes ∧ (0xFFF : Nat) < 0x1000 := by decide

theorem test_witness_DbufReadIsLittleEndian :
    (4 = 1 ∨ 4 = 2 ∨ 4 = 4) ∧ 4092 % 4 = 0 ∧ 4092 + 4 ≤ State.reset.hw.dbufBytes ∧
    State.reset.status.busy = false := by decide

theorem test_witness_DbufWriteIsLittleEndian :
    (1 = 1 ∨ 1 = 2 ∨ 1 = 4) ∧ 4095 % 1 = 0 ∧ 4095 + 1 ≤ State.reset.hw.dbufBytes ∧
    State.reset.status.busy = false := by decide

theorem test_witness_RunningCommandIsUndisturbed :
    let s := demo .cbc 0x00000002 0x100 11 0x200 0
    s.status.busy = true ∧ s.phase = .busy ∧
      (∃ u, engineTurn s = .next u) ∧ ∃ v, engineTurn (s.access (.write 0x00C 4 7)).1 = .next v :=
  ⟨rfl, rfl, ⟨_, rfl⟩, ⟨_, rfl⟩⟩

theorem test_witness_CtxReleaseCompletes :
    7 < (demo .cbc 0 0 0 0 0).hw.nctx ∧ (demo .cbc 0 0 0 0 0).hw.nctx ≤ 8 := by decide

/-- A 32-byte AES key that ends at the end of DBUF, ECB without an IV; and TDES CBC with an 8-byte IV. -/
theorem test_witness_ModeInitCompletes :
    (let s := demo .cbc 0x00000701 4064 32 0 0
     s.HasFree 7 ∧ s.InRange s.op0 s.op1 ∧ s.op1 ∈ keyLens .aes) ∧
    (let s := demo .cbc 0x00250201 0 24 0xFF8 8
     s.HasFree 2 ∧ s.InRange s.op0 s.op1 ∧ s.op1 ∈ keyLens .tdes ∧ s.op3 = blockBytes .tdes ∧
      s.InRange s.op2 s.op3) := by
  simp only [State.HasFree, State.InRange]
  decide

/-- One state for each clause: slot 0 not FREE, slot 8 missing; a FREE slot; a key or IV out of range by one byte; a
key of 23 bytes; an IV for ECB; no IV and an IV of 7 bytes for CBC. -/
theorem test_witness_ModeInitErrorsInOrder :
    (¬ (demo .cbc 0 0 0 0 0).HasFree 0 ∧ ¬ (demo .cbc 0 0 0 0 0).HasFree 8 ∧ (demo .cbc 0 0 0 0 0).HasFree 2) ∧
    ¬ (demo .cbc 0 0xFE9 24 0 0).InRange (demo .cbc 0 0xFE9 24 0 0).op0 (demo .cbc 0 0xFE9 24 0 0).op1 ∧
    ¬ (demo .cbc 0 0 24 0xFF9 8).InRange (demo .cbc 0 0 24 0xFF9 8).op2 (demo .cbc 0 0 24 0xFF9 8).op3 ∧
    (let s := demo .cbc 0 0 23 0 8
     s.InRange s.op0 s.op1 ∧ s.InRange s.op2 s.op3 ∧ s.op1 ∉ keyLens .tdes) ∧
    (let s := demo .cbc 0 0 24 0 7
     s.InRange s.op0 s.op1 ∧ s.InRange s.op2 s.op3 ∧ s.op1 ∈ keyLens .tdes ∧ s.op3 ≠ blockBytes .tdes) := by
  simp only [State.HasFree, State.InRange]
  decide

theorem test_witness_ModeUpdateCompletes :
    let s := demo .cbc 0x00000002 0x100 11 0xFF8 0
    s.HasActive .mode 0 ∧ s.InRange s.op0 s.op1 ∧
      s.InRange s.op2 (((s.slot 0).nb + s.op1) / (s.slot 0).blockLen * (s.slot 0).blockLen) := by
  simp only [State.HasActive, State.InRange]
  decide

/-- CBC with nothing buffered, and CFB with a 3-byte tail that ends at the end of DBUF. -/
theorem test_witness_ModeFinalCompletes :
    (let s := demo .cbc 0x00000003 0 0 0xFFFF 0
     s.HasActive .mode 0 ∧ (s.slot 0).nb = 0 ∧ s.InRange s.op2 ((s.slot 0).finalOutput Config.primitives).length) ∧
    (let s := running slotC hmacSlot0 bufferF 0 0 0xFFD 0
     s.HasActive .mode 0 ∧ (s.slot 0).mode = .cfb ∧
      s.InRange s.op2 ((s.slot 0).finalOutput Config.primitives).length) := by
  refine ⟨⟨⟨by decide, rfl, rfl⟩, rfl, .inl rfl⟩, ⟨by decide, rfl, rfl⟩, rfl, .inr ?_⟩
  show 0xFFD + (slotC.finalOutput Config.primitives).length ≤ 4096
  rw [slotC_tail_length]

theorem test_witness_ModeUpdateFinalErrorsInOrder :
    (let s := running slotDone hmacSlot0 bufferF 0xFFF 2 0 0
     s.hw.nctx ≤ 8 ∧ (s.slot 1).kind ≠ .mode ∧ 0 < s.hw.nctx ∧ (s.slot 0).kind = .mode ∧
      (s.slot 0).st = .finalized) ∧
    (let s := running slotC hmacSlot0 bufferF 0xFFF 2 0 0
     s.HasActive .mode 0 ∧ ¬ s.InRange s.op0 s.op1) ∧
    (let s := running { slotC with mode := .cbc } hmacSlot0 bufferF 0x100 5 0xFFC 0
     s.HasActive .mode 0 ∧ (s.slot 0).mode = .cbc ∧ (s.slot 0).nb ≠ 0 ∧
      ¬ s.InRange s.op2 (((s.slot 0).nb + s.op1) / (s.slot 0).blockLen * (s.slot 0).blockLen)) := by
  simp only [State.HasActive, State.InRange]
  decide

theorem test_witness_ModeFinalOutputOutOfRange :
    let s := running slotC hmacSlot0 bufferF 0 0 0xFFE 0
    s.HasActive .mode 0 ∧ (s.slot 0).mode = .cfb ∧
      ¬ s.InRange s.op2 ((s.slot 0).finalOutput Config.primitives).length := by
  refine ⟨⟨by decide, rfl, rfl⟩, rfl, ?_⟩
  show ¬ ((slotC.finalOutput Config.primitives).length = 0 ∨ 0xFFE + (slotC.finalOutput Config.primitives).length ≤ 4096)
  rw [slotC_tail_length]
  decide

theorem test_witness_HmacInitCompletes :
    let s := demo .cbc 0x00000211 4094 2 0 0
    s.HasFree 2 ∧ 0 < s.hw.nhash ∧ s.InRange s.op0 s.op1 := by
  simp only [State.HasFree, State.InRange]
  decide

theorem test_witness_HmacUpdateCompletes :
    let s := demo .cbc 0x00000112 0 4096 0 0
    s.HasActive .hmac 1 ∧ (∃ hs, (s.slot 1).hs = some hs) ∧ s.InRange s.op0 s.op1 :=
  ⟨⟨by decide, rfl, rfl⟩, ⟨_, rfl⟩, .inr (by decide)⟩

/-- A digest has at most 128 bytes (R7). -/
theorem test_witness_HmacFinalCompletes :
    let s := demo .cbc 0x00000113 0 0 3968 0
    s.HasActive .hmac 1 ∧ (∃ hs, (s.slot 1).hs = some hs) ∧
      s.InRange s.op2 (Config.primitives.hashDigest (s.slot 1).hash) := by
  refine ⟨⟨by decide, rfl, rfl⟩, ⟨_, rfl⟩, .inr ?_⟩
  show 3968 + Config.primitives.hashDigest 0 ≤ 4096
  have := Config.primitives.hash_sizes 0
  simp only [hbmax] at this
  omega

theorem test_witness_HmacCopyCompletes :
    let s := demo .cbc 0x00007114 0 0 0 0
    s.HasActive .hmac 1 ∧ s.HasFree 7 ∧ 7 ≠ 1 := ⟨⟨by decide, rfl, rfl⟩, ⟨by decide, rfl⟩, by decide⟩

theorem test_witness_HmacErrorsInOrder :
    (let s := demo .cbc 0 0xFFF 2 4096 0
     ¬ s.HasFree 0 ∧ ¬ s.HasFree 8 ∧ s.HasFree 7 ∧ s.hw.nhash ≤ 1 ∧ 0 < s.hw.nhash ∧ ¬ s.InRange s.op0 s.op1 ∧
      s.hw.nctx ≤ 8 ∧ (s.slot 0).kind ≠ .hmac ∧ (s.slot 1).kind = .hmac ∧ (s.slot 1).st = .active) ∧
    (let s := running slotHDone Slot.cleared bufferF 0 0 0 0
     0 < s.hw.nctx ∧ (s.slot 0).kind = .hmac ∧ (s.slot 0).st = .finalized) := by
  simp only [State.HasFree, State.InRange]
  decide

theorem test_witness_HmacFinalOutputOutOfRange :
    let s := demo .cbc 0 0 0 4096 0
    s.HasActive .hmac 1 ∧ ¬ s.InRange s.op2 (Config.primitives.hashDigest (s.slot 1).hash) := by
  refine ⟨⟨by decide, rfl, rfl⟩, ?_⟩
  show ¬ (Config.primitives.hashDigest 0 = 0 ∨ 4096 + Config.primitives.hashDigest 0 ≤ 4096)
  have := Config.primitives.hash_sizes 0
  omega

theorem test_witness_FailedCommandHasNoEffect :
    let s := demo .cbc 0x00000802 0 0 0 0
    s.phase = .busy ∧ ∃ t, engineTurn s = .next t ∧ t.status.err ≠ .ok := ⟨rfl, _, rfl, by decide⟩

theorem test_witness_CodesPerCommand :
    (let s := demo .cbc 0x00000802 0 0 0 0
     s.phase = .busy ∧ (∃ t, engineTurn s = .next t) ∧ decode s.cmdl.word = .instr (.modeUpdate 8)) ∧
    (let s := demo .cbc 0x000000FF 0 0 0 0
     s.phase = .busy ∧ (∃ t, engineTurn s = .next t) ∧ decode s.cmdl.word = .reject .unknownOpcode) :=
  ⟨⟨rfl, ⟨_, rfl⟩, by decide⟩, ⟨rfl, ⟨_, rfl⟩, by decide⟩⟩

theorem test_witness_CommandsKeepFrame : ∃ t, exec (.modeUpdate 0) (demo .cbc 0x00000002 0x100 11 0x200 0) = .next t :=
  ⟨_, exec_eq _ _⟩

/-- One update that outputs 8 bytes, and one that fails. -/
theorem test_witness_CommandsWriteOnlyTheirOutput :
    (let s := demo .cbc 0x00000002 0x100 11 0x200 0
     s.Safe ∧ ∃ t, exec (.modeUpdate 0) s = .next t ∧ t.status.err = .ok ∧ t.resultLen = 8) ∧
    (let s := demo .cbc 0x00000802 0 0 0 0
     s.Safe ∧ ∃ t, exec (.modeUpdate 8) s = .next t ∧ t.status.err ≠ .ok) :=
  ⟨⟨demo_safe (by decide) _ _ _ _ _, _, exec_eq _ _, rfl, rfl⟩,
    ⟨demo_safe (by decide) _ _ _ _ _, _, exec_eq _ _, by decide⟩⟩

theorem test_witness_CommandsWithoutOutputKeepDbuf :
    (∀ c, Instr.hmacCopy 1 2 ≠ .modeUpdate c ∧ Instr.hmacCopy 1 2 ≠ .modeFinal c ∧ Instr.hmacCopy 1 2 ≠ .hmacFinal c) ∧
      ∃ t, exec (.hmacCopy 1 2) (demo .cbc 0x00002114 0 0 0 0) = .next t :=
  ⟨fun _ => ⟨nofun, nofun, nofun⟩, _, exec_eq _ _⟩

theorem test_witness_CommandsWriteOnlyTheirSlot :
    (∃ t, exec (.hmacCopy 1 2) (demo .cbc 0x00002114 0 0 0 0) = .next t) ∧ some 1 ≠ writtenSlot (.hmacCopy 1 2) :=
  ⟨⟨_, exec_eq _ _⟩, by decide⟩

/-- Another slot 0, which a copy from slot 1 to slot 2 does not name. -/
theorem test_witness_CommandsReadOnlyNamedSlots :
    let s := demo .cbc 0x00002114 0 0 0 0
    let slots := s.slots.set 0 slotDone
    slots.length = s.slots.length ∧
      (∀ k, k ∈ namedSlots (.hmacCopy 1 2) → State.slot { s with slots := slots } k = s.slot k) ∧
      (∃ t, exec (.hmacCopy 1 2) s = .next t) ∧ ∃ t, exec (.hmacCopy 1 2) { s with slots := slots } = .next t := by
  refine ⟨rfl, ?_, ⟨_, exec_eq _ _⟩, _, exec_eq _ _⟩
  intro k hk
  simp only [namedSlots, List.mem_cons, List.not_mem_nil, or_false] at hk
  rcases hk with rfl | rfl <;> rfl

theorem test_witness_LifecycleTransitions :
    let s := demo .cbc 0x00007114 0 0 0 0
    s.Safe ∧ 7 < s.hw.nctx ∧ ∃ t, exec (.hmacCopy 1 7) s = .next t ∧ (t.slot 7).st = .active :=
  ⟨demo_safe (by decide) _ _ _ _ _, by decide, _, exec_eq _ _, rfl⟩

theorem test_witness_FinalizedSlotStaysUntilRelease :
    let s := running slotDone hmacSlot0 bufferF 0 0 0 0
    (s.slot 0).st = .finalized ∧ Instr.modeFinal 0 ≠ .ctxRelease 0 ∧ ∃ t, exec (.modeFinal 0) s = .next t :=
  ⟨rfl, nofun, _, exec_eq _ _⟩

theorem test_witness_ResetStateIsSafe :
    HwConfig.legal { nctx := 16, nhash := 16, dbufBytes := 16, base := 0x40000000 } = true := by decide

theorem test_witness_StepKeepsInvariant :
    let s := demo .cbc 0x00000002 0x100 11 0x200 0
    s.Safe ∧ ∃ t, step s = .next t ∧ t.phase = .idle :=
  ⟨demo_safe (by decide) _ _ _ _ _, _, rfl, rfl⟩

theorem test_witness_ResetInputFromAnyState :
    State.moves { demo .cbc 0x00000002 0x100 11 0x200 0 with moves := [.reset, .engine] } = .reset :: [.engine] := rfl

/-- After the context in slot 0 is finalized. -/
theorem test_witness_NoSecretsOutsideActiveSlots :
    let s := demo .cbc 0x00000003 0 0 0 0
    s.Safe ∧ ∃ t, step s = .next t ∧ 0 < t.hw.nctx ∧ (t.slot 0).st ≠ .active :=
  ⟨demo_safe (by decide) _ _ _ _ _, _, rfl, by decide, by decide⟩

theorem test_witness_UpdateRunsBlockSteps : (slotU .cbc .dec).Good standIn Config.hw ∧ (slotU .cbc .dec).kind = .mode :=
  ⟨slotU_good _ _ _ (by decide), rfl⟩

theorem test_witness_TailUsesLeadingKeystream :
    ((slotU .cfb .enc).absorb standIn [0x00, 0x10, 0x20]).1.Good standIn Config.hw ∧
    ((slotU .cfb .enc).absorb standIn [0x00, 0x10, 0x20]).1.kind = .mode ∧
    ((slotU .cfb .enc).absorb standIn [0x00, 0x10, 0x20]).1.mode = .cfb ∧
    ((slotU .cfb .enc).absorb standIn [0x00, 0x10, 0x20]).1.nb = 3 :=
  ⟨absorb_good _ _ (slotU_good _ _ _ (by decide)) rfl rfl _, rfl, rfl, by decide⟩

theorem test_witness_ChunkingIndependence :
    (slotU .ofb .dec).Good standIn Config.hw ∧ (slotU .ofb .dec).kind = .mode ∧ (slotU .ofb .dec).st = .active :=
  ⟨slotU_good _ _ _ (by decide), rfl, rfl⟩

theorem test_witness_OutputLength : ivA.length = blockBytes .tdes := by decide

theorem rotRight_rotLeft (x : Bytes) : rotRight (rotLeft x) = x := by
  cases x with
  | nil => rfl
  | cons b bs => simp [rotLeft, rotRight]

/-- RS satisfies `INV_alg`, as 95_test_vectors.md section 1 says. -/
theorem standIn_inv (alg : Alg) : standIn.InvAlg alg := by
  intro k x _ hx
  show xorBytes (rotRight (rotLeft (xorBytes x (keyBlock alg k)))) (keyBlock alg k) = x
  rw [rotRight_rotLeft, xorBytes_cancel_right (by rw [hx, keyBlock, length_padTo])]

/-- CBC over two blocks, where `INV_alg` is needed, and CFB over 11 bytes, where it is not. -/
theorem test_witness_RoundTrip :
    keyK.length ∈ keyLens .tdes ∧ ivA.length = blockBytes .tdes ∧ standIn.InvAlg .tdes ∧
    [block1, block2].flatten.length % blockBytes .tdes = 0 ∧
    (∃ cipher : List Bytes, cipher.flatten = (Slot.openMode .tdes .cbc .enc keyK ivA).output standIn [block1, block2]) ∧
    ∃ cipher : List Bytes,
      cipher.flatten = (Slot.openMode .tdes .cfb .enc keyK ivA).output standIn [block1, [0x80, 0x90, 0xa0]] :=
  ⟨by decide, by decide, standIn_inv .tdes, by decide, ⟨[_], List.append_nil _⟩, ⟨[_], List.append_nil _⟩⟩

theorem test_witness_HmacKeyNormalisation :
    (upFrom 1 4).length ≤ standIn.hashBlock 0 ∧ standIn.hashBlock 0 < (upFrom 1 5).length := by decide

/-- TH satisfies `INCR_h`, as 95_test_vectors.md section 1 says. -/
theorem test_witness_HmacDigestFormula : standIn.IncrHash 0 :=
  ⟨fun s a b => List.append_assoc s a b, fun s => List.append_nil s⟩

theorem test_witness_CopyIndependence :
    let s := demo .cbc 0x00002114 0 0 0 0
    s.Safe ∧ s.HasActive .hmac 1 ∧ s.HasFree 2 ∧ 2 ≠ 1 ∧
      ∃ s1, exec (.hmacCopy 1 2) s = .next s1 ∧ s1.InRange s1.op0 s1.op1 ∧
        ∃ t1, exec (.hmacUpdate 1) s1 = .next t1 ∧ t1.InRange t1.op0 t1.op1 ∧
          ∃ t2, exec (.hmacUpdate 2) t1 = .next t2 :=
  ⟨demo_safe (by decide) _ _ _ _ _, ⟨by decide, rfl, rfl⟩, ⟨by decide, rfl⟩, by decide,
    _, exec_eq _ _, .inl rfl, _, exec_eq _ _, .inl rfl, _, exec_eq _ _⟩

end Sys2Proof.Tests
end

section
/-! PROOFS. Host accesses to the registers, and their independence of the slot file (10_state.md rules R33, R35, R36,
R50). -/

namespace Sys2Proof.Machine

/-- A register's offset lies in the register window (R33, R70). -/
theorem regAt_offset_lt {off : Nat} {r : RegName} (h : regAt off = some r) : off < 0x1000 := by
  have hr : off % 4 = 0 ∧ off < 0x20 := (regAt_isSome off).1 (Option.isSome_of_eq_some h)
  omega

/-- A 4-byte access at a register's offset lands in that register, in either phase (R74). -/
theorem target_of_regAt (s : State) {off : Nat} {r : RegName} (h : regAt off = some r) :
    s.target (s.hw.base + off) 4 = .reg r := by
  simp [target_register s 4 (regAt_offset_lt h), h]

theorem access_write_reg (s : State) {off : Nat} {r : RegName} (w : Word) (h : regAt off = some r) :
    s.access (.write (s.hw.base + off) 4 w) = (s.writeReg r w, .written) := by
  simp only [State.access, target_of_regAt s h]

/-- A `CMD` write while the engine is idle is accepted (R35). -/
theorem writeCmd_of_not_busy (s : State) (w : Word) (h : s.status.busy = false) : s.writeCmd w = s.acceptCmd w := by
  simp [State.writeCmd, h]

/-- A `CMD` write while a command runs only sets `OVERRUN` (R36). -/
theorem writeCmd_of_busy (s : State) (w : Word) (h : s.status.busy = true) :
    s.writeCmd w = { s with status := { s.status with overrun := true } } := by
  simp [State.writeCmd, h]

/-- Settles O11: the access is the `CMD` register's write, which accepts while `BUSY = 0`. -/
theorem acceptedCmdWrite : Obligations.AcceptedCmdWrite := by
  intro s w hbusy
  calc s.access (.write (s.hw.base + 0x000) 4 w)
      = (s.writeCmd w, .written) := access_write_reg s (r := .cmd) w rfl
    _ = (s.acceptCmd w, .written) := by rw [writeCmd_of_not_busy s w hbusy]

/-- Settles O12: the access is the `CMD` register's write, which drops the word while `BUSY = 1`. -/
theorem cmdWriteWhileBusyIsDropped : Obligations.CmdWriteWhileBusyIsDropped := by
  intro s w hbusy
  calc s.access (.write (s.hw.base + 0x000) 4 w)
      = (s.writeCmd w, .written) := access_write_reg s (r := .cmd) w rfl
    _ = ({ s with status := { s.status with overrun := true } }, .written) := by rw [writeCmd_of_busy s w hbusy]

@[simp] theorem target_withSlots (s : State) (slots : List Slot) (addr n : Nat) :
    State.target { s with slots := slots } addr n = s.target addr n := rfl

@[simp] theorem memRead_withSlots (s : State) (slots : List Slot) (off n : Nat) :
    State.memRead { s with slots := slots } off n = s.memRead off n := rfl

@[simp] theorem readReg_withSlots (s : State) (slots : List Slot) (r : RegName) :
    State.readReg { s with slots := slots } r = s.readReg r := by cases r <;> rfl

/-- A `CMD` write is accepted or dropped by `BUSY` alone, whatever the slots hold (R35, R36). -/
theorem writeCmd_withSlots (s : State) (slots : List Slot) (w : Word) :
    State.writeCmd { s with slots := slots } w = { s.writeCmd w with slots := slots } := by
  cases hbusy : s.status.busy with
  | false => rw [writeCmd_of_not_busy s w hbusy]; exact writeCmd_of_not_busy { s with slots := slots } w hbusy
  | true => rw [writeCmd_of_busy s w hbusy]; exact writeCmd_of_busy { s with slots := slots } w hbusy

theorem writeReg_withSlots (s : State) (slots : List Slot) (r : RegName) (w : Word) :
    State.writeReg { s with slots := slots } r w = { s.writeReg r w with slots := slots } := by
  cases r with
  | cmd => exact writeCmd_withSlots s slots w
  | _ => rfl

/-- Exchanging the slot file commutes with every host access, and the bus answers the same (R50). -/
theorem access_withSlots (s : State) (slots : List Slot) (a : Access) :
    State.access { s with slots := slots } a = ({ (s.access a).1 with slots := slots }, (s.access a).2) := by
  cases a with
  | read addr n => cases ht : s.target addr n <;> simp [State.access, ht]
  | write addr n v => cases ht : s.target addr n <;> simp [State.access, ht, writeReg_withSlots]

/-- No host access changes a slot: the slot file `s` already has may be exchanged for itself. -/
@[simp] theorem access_slots (s : State) (a : Access) : (s.access a).1.slots = s.slots :=
  congrArg (fun result => result.1.slots) (access_withSlots s s.slots a)

/-- Settles O23, by commuting the access with the exchange of the slot file. -/
theorem hostAccessesNeverSeeSlots : Obligations.HostAccessesNeverSeeSlots := by
  intro s slots a
  rw [access_withSlots s slots a]
  exact ⟨rfl, rfl, access_slots s a⟩

end Sys2Proof.Machine
end

section
/-! PROOFS. The data buffer while a command runs, and what the engine writes to it (20_memory.md rules R77, R81,
R86). -/

namespace Sys2Proof.Machine

theorem access_read_busError {s : State} {addr n : Nat} (h : s.target addr n = .busError) :
    s.access (.read addr n) = (s, .busError) := by
  simp only [State.access, h]

theorem access_write_busError {s : State} {addr n : Nat} (v : Word) (h : s.target addr n = .busError) :
    s.access (.write addr n v) = (s, .busError) := by
  simp only [State.access, h]

/-- No read changes the state (R82). -/
@[simp] theorem access_read_state (s : State) (addr n : Nat) : (s.access (.read addr n)).1 = s := by
  cases ht : s.target addr n <;> simp only [State.access, ht]

/-- Where an access lands alone decides whether a read completes (R75). -/
theorem read_response_eq_busError_iff (s : State) (addr n : Nat) :
    (s.access (.read addr n)).2 = .busError ↔ s.target addr n = .busError := by
  cases ht : s.target addr n <;> simp [State.access, ht]

/-- Where an access lands alone decides what the bus answers to a write (R75). -/
theorem write_response_eq (s : State) (addr n : Nat) (v : Word) :
    (s.access (.write addr n v)).2 = if s.target addr n = .busError then .busError else .written := by
  cases ht : s.target addr n <;> simp [State.access, ht]

/-- While a command runs no access lands in DBUF (R77). -/
theorem target_dbuf_of_busy (s : State) (d n : Nat) (h : s.status.busy = true) :
    s.target (s.hw.base + 0x1000 + d) n = .busError := by
  simp [target_dbuf, h]

/-- Where an access to the register window lands does not depend on `STATUS` (R74, R75). -/
theorem target_register_withStatus (s : State) (status : StatusReg) {off : Nat} (n : Nat) (h : off < 0x1000) :
    State.target { s with status := status } (s.hw.base + off) n = s.target (s.hw.base + off) n :=
  (target_register { s with status := status } n h).trans (target_register s n h).symm

/-- Settles O19: the target of an access is a bus error in DBUF while `BUSY = 1`, and is the same in either phase in
the register window. -/
theorem dbufLockedWhileBusy : Obligations.DbufLockedWhileBusy := by
  intro s n v hbusy
  refine ⟨fun d _ => ?_, fun off hoff => ?_⟩
  · have htarget := target_dbuf_of_busy s d n hbusy
    exact ⟨access_read_busError htarget, access_write_busError v htarget⟩
  · have htarget := target_register_withStatus s { s.status with busy := false } n hoff
    exact ⟨by simp only [read_response_eq_busError_iff, htarget], by simp only [write_response_eq, htarget]⟩

/-- The state with other argument registers and another `OVERRUN` flag: all that a host access can change while a
command runs (R36, R38). -/
def State.withHostWrites (s : State) (args : ArgRegs) (overrun : Bool) : State :=
  { s with args := args, status := { s.status with overrun := overrun } }

/-- A host write to `STATUS` can only clear `OVERRUN` (R34). -/
theorem hostWrite_eq (st : StatusReg) (w : Word) :
    st.hostWrite w = { st with overrun := st.overrun && !w.getLsbD 2 } := by
  unfold StatusReg.hostWrite
  split
  · next h => simp only [h, Bool.not_true, Bool.and_false]
  · next h => simp only [h, Bool.not_false, Bool.and_true]

/-- A register write while a command runs changes at most an argument register or `OVERRUN` (R34, R36, R38). -/
theorem writeReg_of_busy {s : State} (r : RegName) (w : Word) (h : s.status.busy = true) :
    ∃ args overrun, s.writeReg r w = s.withHostWrites args overrun := by
  cases r with
  | cmd => exact ⟨_, _, writeCmd_of_busy s w h⟩
  | status => exact ⟨s.args, _, congrArg (fun status => { s with status := status }) (hostWrite_eq s.status w)⟩
  | _ => exact ⟨_, s.status.overrun, rfl⟩

/-- A host access while a command runs changes at most the argument registers and `OVERRUN`: DBUF is locked (R77). -/
theorem access_of_busy {s : State} (a : Access) (h : s.status.busy = true) :
    ∃ args overrun, (s.access a).1 = s.withHostWrites args overrun := by
  have hsame : s = s.withHostWrites s.args s.status.overrun := rfl
  cases a with
  | read addr n => exact ⟨_, _, (access_read_state s addr n).trans hsame⟩
  | write addr n v =>
    cases ht : s.target addr n with
    | reg r => simpa only [State.access, ht] using writeReg_of_busy r v h
    | buffer off => simp [(target_buffer_inside ht).2] at h
    | busError => exact ⟨_, _, by rw [access_write_busError v ht]; exact hsame⟩

/-- No command reads the argument registers or `OVERRUN`: it has the latched copies (R41, R86). -/
theorem completionOf_withHostWrites (P : Primitives) (s : State) (args : ArgRegs) (overrun : Bool) (i : Instr) :
    completionOf P (s.withHostWrites args overrun) i = completionOf P s i := by
  cases i <;> rfl

theorem finish_withHostWrites (s : State) (args : ArgRegs) (overrun : Bool) (c : Completion) :
    (s.withHostWrites args overrun).finish c = (s.finish c).withHostWrites args overrun := by
  cases c <;> rfl

/-- The engine's turn commutes with whatever the host changes while a command runs (R86). -/
theorem engineTurn_withHostWrites {s u : State} (args : ArgRegs) (overrun : Bool) (h : engineTurn s = .next u) :
    engineTurn (s.withHostWrites args overrun) = .next (u.withHostWrites args overrun) := by
  have hphase : (s.withHostWrites args overrun).phase = s.phase := rfl
  have hcmdl : (s.withHostWrites args overrun).cmdl = s.cmdl := rfl
  rcases engineTurn_cases h with ⟨hp, rfl⟩ | ⟨hp, ⟨i, hi, rfl⟩ | ⟨e, he, rfl⟩⟩
  · simp only [engineTurn, hphase, hp]
  · simp only [engineTurn, runCommand, hphase, hp, hcmdl, hi, exec_eq, completionOf_withHostWrites,
      finish_withHostWrites]
  · simp only [engineTurn, runCommand, hphase, hp, hcmdl, he]
    rfl

/-- Settles O24, by commuting the engine's turn with the host access. -/
theorem runningCommandIsUndisturbed : Obligations.RunningCommandIsUndisturbed := by
  intro s t u v a hbusy ht hu hv
  obtain ⟨args, overrun, haccess⟩ := access_of_busy a hbusy
  obtain rfl : t = s.withHostWrites args overrun := ht.trans haccess
  obtain rfl : u.withHostWrites args overrun = v := by
    simpa only [engineTurn_withHostWrites args overrun hu, Host.Outcome.next.injEq] using hv
  exact ⟨⟨rfl, rfl, rfl, hbusy, rfl⟩, fun _ => ⟨rfl, rfl, rfl, rfl⟩⟩

section
variable {P : Primitives} {s : State} {i : Instr} {n off : Nat} {slots : List Slot} {out : Bytes}

/-- A slot that exists is a good one in a good state. -/
theorem slot_good {c : Nat} (hs : s.Inv P) (hc : c < s.hw.nctx) : (s.slot c).Good P s.hw :=
  hs.slotsGood _ (slot_mem (hs.slotCount.symm ▸ hc))

/-- A command that ends with OK in a good state outputs as many bytes as its result length says (R39, R81). -/
theorem completionOf_output_length (hs : s.Inv P) (hd : completionOf P s i = .done n slots off out) :
    out.length = n := by
  cases i with
  | nop => obtain ⟨rfl, rfl, -⟩ := nop_done hd; rfl
  | modeInit c a m d v => obtain ⟨rfl, rfl, -⟩ := modeInit_done hd; rfl
  | modeUpdate c =>
    obtain ⟨hc, -, -, rfl, -, -, -, rfl⟩ := modeUpdate_done hd
    rw [absorb_out_length P _ _ (slot_good hs hc).rWidth, length_memRead]
  | modeFinal c => obtain ⟨-, -, -, rfl, -, -, -, rfl⟩ := modeFinal_done hd; rfl
  | hmacInit c h => obtain ⟨rfl, rfl, -⟩ := hmacInit_done hd; rfl
  | hmacUpdate c => obtain ⟨rfl, rfl, -⟩ := hmacUpdate_done hd; rfl
  | hmacFinal c =>
    obtain ⟨-, -, -, rfl, -, -, -, rfl⟩ := hmacFinal_done hd
    exact digest_length P _
  | hmacCopy c c2 => obtain ⟨rfl, rfl, -⟩ := hmacCopy_done hd; rfl
  | ctxRelease c => obtain ⟨rfl, rfl, -⟩ := ctxRelease_done hd; rfl

/-- DBUF has at most 4096 bytes (R7). -/
theorem dbufBytes_le_of_legal {hw : HwConfig} (h : hw.legal = true) : hw.dbufBytes ≤ 4096 := by
  simp only [HwConfig.legal, Bool.and_eq_true, decide_eq_true_eq] at h
  exact h.2

/-- The result length of a command that ends with OK fits DBUF. -/
theorem completionOf_result_le (hd : completionOf P s i = .done n slots off out) : n ≤ s.hw.dbufBytes := by
  rcases (completionOf_done hd).2 with ⟨rfl, -⟩ | ⟨-, hv⟩
  · exact Nat.zero_le _
  · rcases (validRegion_iff s _ _).1 hv with rfl | hle
    · exact Nat.zero_le _
    · omega

/-- `RESULT_LEN` holds the output length of a command that ends with OK, without wrap-around (R37, R39). -/
theorem finish_done_resultLen_toNat (hs : s.Inv P) (hd : completionOf P s i = .done n slots off out) :
    (s.finish (.done n slots off out)).resultLen.toNat = n := by
  have hn := completionOf_result_le hd
  have hmax := dbufBytes_le_of_legal hs.hwLegal
  rw [finish_done_resultLen, BitVec.toNat_ofNat]
  exact Nat.mod_eq_of_lt (by omega)

/-- A command that ends with OK writes no byte of DBUF outside the region of its result length at `ARG2` (R81). -/
theorem finish_done_outside (hs : s.Inv P) (hd : completionOf P s i = .done n slots off out) {a : Nat}
    (ha : a < s.op2 ∨ s.op2 + n ≤ a) : (s.finish (.done n slots off out)).byteAt a = s.byteAt a := by
  have hout := completionOf_output_length hs hd
  refine (finish_done_writes s n slots off out).1 a ?_
  rcases (completionOf_done hd).2 with ⟨-, rfl⟩ | ⟨rfl, -⟩
  · exact Nat.lt_or_ge a off
  · rwa [hout]

end

/-- Settles O40: an error writes nothing, and the output of a command that ends with OK is as long as `RESULT_LEN`
says. -/
theorem commandsWriteOnlyTheirOutput : Obligations.CommandsWriteOnlyTheirOutput := by
  intro i s t hs hexec
  rw [exec_next_iff] at hexec
  subst hexec
  cases hc : completionOf Config.primitives s i with
  | raised code => exact ⟨fun _ => raise_dbufUnchanged s code, fun a _ => raise_dbufUnchanged s code a⟩
  | done n slots off out =>
    refine ⟨fun herr => absurd rfl herr, fun a ha => ?_⟩
    rw [finish_done_resultLen_toNat hs hc] at ha
    exact finish_done_outside hs hc ha

end Sys2Proof.Machine
end

section
/-! PROOFS. The block step of each mode and direction, one equation per case (40_mode_engine.md rules R132 to R138). -/

namespace Sys2Proof.Machine

section

variable (E D : Bytes → Bytes) (d : Dir) (R x : Bytes)

@[simp] theorem blockStep_ecb_enc : blockStep E D .ecb .enc R x = (E x, R) := rfl

@[simp] theorem blockStep_ecb_dec : blockStep E D .ecb .dec R x = (D x, R) := rfl

@[simp] theorem blockStep_cbc_enc :
    blockStep E D .cbc .enc R x = (E (xorBytes x R), E (xorBytes x R)) := rfl

@[simp] theorem blockStep_cbc_dec : blockStep E D .cbc .dec R x = (xorBytes (D x) R, x) := rfl

@[simp] theorem blockStep_cfb_enc :
    blockStep E D .cfb .enc R x = (xorBytes x (E R), xorBytes x (E R)) := rfl

@[simp] theorem blockStep_cfb_dec : blockStep E D .cfb .dec R x = (xorBytes x (E R), x) := rfl

@[simp] theorem blockStep_ofb : blockStep E D .ofb d R x = (xorBytes x (E R), E R) := rfl

end

/-- Settles O50: one equation per mode and direction, with a single one for OFB, whose step does not look at the
direction. -/
theorem blockStepEquations : Obligations.BlockStepEquations := fun E D d R x =>
  ⟨blockStep_ecb_enc E D R x, blockStep_ecb_dec E D R x, blockStep_cbc_enc E D R x, blockStep_cbc_dec E D R x,
    blockStep_cfb_enc E D R x, blockStep_cfb_dec E D R x, blockStep_ofb E D d R x⟩

end Sys2Proof.Machine
end

section
/-! PROOFS. The normalised key and the padded keys of an HMAC context (41_hmac_engine.md rules R182, R183). -/

namespace Sys2Proof.Machine

/-- A byte string against one repeated byte (R14). -/
theorem getD_xorBytes_rep (a : Bytes) (v : Byte) {n i : Nat} (ha : i < a.length) (hn : i < n) :
    (xorBytes a (rep v n)).getD i 0 = a.getD i 0 ^^^ v := by
  simp [xorBytes, rep, ha, hn]

theorem hmacKey_of_length_le (P : Primitives) (h : Nat) {key : Bytes} (hk : key.length ≤ P.hashBlock h) :
    hmacKey P h key = key ++ zeros (P.hashBlock h - key.length) := by
  simp [hmacKey, Nat.not_lt.2 hk]

theorem length_hash (P : Primitives) (h : Nat) (m : Bytes) : (P.hash h m).length = P.hashDigest h :=
  P.hashFinal_length h _

theorem hmacKey_of_lt_length (P : Primitives) (h : Nat) {key : Bytes} (hk : P.hashBlock h < key.length) :
    hmacKey P h key = P.hash h key ++ zeros (P.hashBlock h - P.hashDigest h) := by
  simp [hmacKey, hk, length_hash]

section

variable (P : Primitives) (h : Nat) (key : Bytes) {i : Nat} (hi : i < P.hashBlock h)

include hi

theorem getD_hmacIpad : (hmacIpad P h key).getD i 0 = (hmacKey P h key).getD i 0 ^^^ 0x36#8 :=
  getD_xorBytes_rep _ _ (hi.trans_eq (length_hmacKey P h key).symm) hi

theorem getD_hmacOpad : (hmacOpad P h key).getD i 0 = (hmacKey P h key).getD i 0 ^^^ 0x5c#8 :=
  getD_xorBytes_rep _ _ (hi.trans_eq (length_hmacKey P h key).symm) hi

end

/-- Settles O56: a key of exactly the block length falls under the first equation, as R182 says, and each padded key is
read byte by byte against its constant. -/
theorem hmacKeyNormalisation : Obligations.HmacKeyNormalisation := fun P h key =>
  ⟨hmacKey_of_length_le P h, hmacKey_of_lt_length P h, length_hmacKey P h key, length_hmacIpad P h key,
    length_hmacOpad P h key, fun _ hi => ⟨getD_hmacIpad P h key hi, getD_hmacOpad P h key hi⟩⟩

end Sys2Proof.Machine
end

section
/-! PROOFS. What a command that ends with an error leaves behind (60_exceptions.md rule R224). -/

namespace Sys2Proof.Machine

/-- Taking MOCE's exception performs R37 with result length 0 and nothing else (R224). -/
theorem raise_eq_afterError (s : State) (code : StatusCode) : s.raise code = s.afterError code := rfl

/-- Only a raised completion ends with a code other than OK, so such a command has no effect but R37 (R224). -/
theorem finish_eq_afterError {s : State} {c : Completion} (herr : (s.finish c).status.err ≠ .ok) :
    s.finish c = s.afterError (s.finish c).status.err := by
  cases c with
  | raised code => exact raise_eq_afterError s code
  | done n slots off out => exact absurd (completed_err .ok s.status) herr

/-- Settles O37: a legal word ends in its command's completion, and an illegal one raises `BadCommand`. -/
theorem failedCommandHasNoEffect : Obligations.FailedCommandHasNoEffect := by
  intro s t hbusy hturn herr
  rcases engineTurn_cases hturn with ⟨hidle, -⟩ | ⟨-, ⟨i, -, rfl⟩ | ⟨e, -, rfl⟩⟩
  · cases hbusy.symm.trans hidle
  · exact finish_eq_afterError herr
  · exact raise_eq_afterError s .badCommand

end Sys2Proof.Machine
end

section
/-! PROOFS. Words as fields in their places: decoding and encoding (30_encoding.md rules R100 to R107), and the words of
`STATUS` and `HWCFG` (10_state.md rules R34, R40). -/

namespace Sys2Proof

theorem getLsbD_placed (v lo j : Nat) :
    (placed v lo).getLsbD j = (decide (lo ≤ j) && decide (j < 32) && v.testBit (j - lo)) := by
  simp only [placed, BitVec.getLsbD_shiftLeft, BitVec.getLsbD_ofNat]
  by_cases hj : j < 32
  · have : j - lo < 32 := by omega
    by_cases hlo : lo ≤ j <;> simp [hj, hlo, this]
  · simp [hj]

/-- A field read where it was placed. -/
@[simp] theorem extract_placed_same {v lo n : Nat} (hn : lo + n ≤ 32) :
    (placed v lo).extractLsb' lo n = BitVec.ofNat n v := by
  refine BitVec.eq_of_getLsbD_eq fun j hj => ?_
  simp only [BitVec.getLsbD_extractLsb', getLsbD_placed, BitVec.getLsbD_ofNat, hj, Nat.add_sub_cancel_left,
    Nat.le_add_right, show lo + j < 32 by omega, decide_true, Bool.true_and]

/-- A field of `k` bits does not reach into other bits of the word. -/
theorem extract_placed_disjoint {v lo k start n : Nat} (hv : v < 2 ^ k) (hd : start + n ≤ lo ∨ lo + k ≤ start) :
    (placed v lo).extractLsb' start n = 0#n := by
  refine BitVec.eq_of_getLsbD_eq fun j hj => ?_
  simp only [BitVec.getLsbD_extractLsb', getLsbD_placed, hj, decide_true, Bool.true_and, BitVec.getLsbD_zero]
  rcases hd with hd | hd
  · simp [show ¬ lo ≤ start + j by omega]
  · have hlt : v < 2 ^ (start + j - lo) := hv.trans_le (Nat.pow_le_pow_right (by omega) (by omega))
    simp [Nat.testBit_lt_two_pow hlt]

/-- Taking a field out of a word and placing it back keeps the field's bits of the word. -/
theorem placed_extract (w : Word) (lo n : Nat) :
    placed (w.extractLsb' lo n).toNat lo = w &&& ((BitVec.allOnes n).setWidth 32 <<< lo) := by
  refine BitVec.eq_of_getLsbD_eq fun j hj => ?_
  simp only [getLsbD_placed, BitVec.testBit_toNat, BitVec.getLsbD_extractLsb', BitVec.getLsbD_and,
    BitVec.getLsbD_shiftLeft, BitVec.getLsbD_setWidth, BitVec.getLsbD_allOnes, hj, decide_true, Bool.true_and,
    Bool.and_true, show j - lo < 32 by omega]
  by_cases hlo : lo ≤ j
  · simp [hlo, Nat.not_lt.2 hlo, show lo + (j - lo) = j by omega, Bool.and_comm]
  · simp [hlo, Nat.lt_of_not_le hlo]

/-! The opcode -/

theorem opcodeOf_eq_some_iff (w : Word) (o : Opcode) : opcodeOf w = some o ↔ w.extractLsb' 0 8 = o.code := by
  constructor
  · intro h
    have hfound := List.find?_some (p := fun o : Opcode => o.code == w.extractLsb' 0 8) h
    exact (beq_iff_eq.1 hfound).symm
  · intro h
    rw [opcodeOf, h]
    cases o <;> rfl

theorem mem_opcodes (o : Opcode) : o ∈ Opcode.all := by cases o <;> decide

theorem opcodeOf_eq_none_iff (w : Word) : opcodeOf w = none ↔ w.extractLsb' 0 8 ∉ Opcode.all.map Opcode.code := by
  simp only [opcodeOf, List.find?_eq_none, beq_iff_eq, List.mem_map, not_exists, not_and]

/-- What the decoder answers to a word of a known opcode (R104, R105). -/
theorem decode_of_opcode {w : Word} {o : Opcode} (h : w.extractLsb' 0 8 = o.code) :
    decode w = if w &&& ~~~usedMask o = 0 then .instr (operandsOf o w) else .reject .reservedBits := by
  simp only [decode, (opcodeOf_eq_some_iff w o).2 h]

/-- Everything a word that decodes is: the operands of its opcode, with no bit outside `USED_MASK` (R100, R104). -/
theorem decode_eq_instr_iff {w : Word} {i : Instr} :
    decode w = .instr i ↔
      ∃ o : Opcode, w.extractLsb' 0 8 = o.code ∧ w &&& ~~~usedMask o = 0 ∧ i = operandsOf o w := by
  constructor
  · intro h
    cases ho : opcodeOf w with
    | none => simp [decode, ho] at h
    | some o =>
      have hcode := (opcodeOf_eq_some_iff w o).1 ho
      rw [decode_of_opcode hcode] at h
      split at h
      · next hmask => exact ⟨o, hcode, hmask, by simpa using h.symm⟩
      · cases h
  · rintro ⟨o, hcode, hmask, rfl⟩
    rw [decode_of_opcode hcode, if_pos hmask]

theorem opcodeOfInstr_operandsOf (o : Opcode) (w : Word) : opcodeOfInstr (operandsOf o w) = o := by cases o <;> rfl

/-- Settles O4, from the opcode's search and the mask's test. -/
theorem decodeRejectsIllegalWords : Obligations.DecodeRejectsIllegalWords := by
  intro w
  refine ⟨fun hunknown => ?_, fun o hcode => ⟨fun hmask => ?_, fun hmask => ?_⟩⟩
  · have hnone : opcodeOf w = none := (opcodeOf_eq_none_iff w).2 hunknown
    simp only [decode, hnone]
  · rw [decode_of_opcode hcode, if_neg hmask]
  · exact ⟨_, decode_eq_instr_iff.2 ⟨o, hcode, hmask, rfl⟩, opcodeOfInstr_operandsOf o w⟩

/-! Decoding an encoded instruction -/

/-- The low byte of a command word, above which every operand lies. -/
@[simp] theorem extract_opcodeWord (o : Opcode) {start n : Nat} (h : 8 ≤ start) :
    (opcodeWord o).extractLsb' start n = 0#n := by
  refine BitVec.eq_of_getLsbD_eq fun j hj => ?_
  simp [opcodeWord, hj, BitVec.getLsbD_of_ge o.code (start + j) (by omega)]

/-- The word of a well-formed instruction carries its opcode and no bit outside `USED_MASK` (R101, R104). -/
theorem encode_fits (i : Instr) : Laws.EncodingFits.Statement i := by
  cases i with
  | nop => exact Laws.EncodingFits.nop
  | modeInit c a m d v => exact Laws.EncodingFits.modeInit c a m d v
  | modeUpdate c => exact Laws.EncodingFits.modeUpdate c
  | modeFinal c => exact Laws.EncodingFits.modeFinal c
  | hmacInit c h => exact Laws.EncodingFits.hmacInit c h
  | hmacUpdate c => exact Laws.EncodingFits.hmacUpdate c
  | hmacFinal c => exact Laws.EncodingFits.hmacFinal c
  | hmacCopy c c2 => exact Laws.EncodingFits.hmacCopy c c2
  | ctxRelease c => exact Laws.EncodingFits.ctxRelease c

/-- A 4-bit field of an encoded word is its index again. -/
theorem toNat_ofNat_of_fits4 {n : Nat} (h : fits4 n = true) : (BitVec.ofNat 4 n).toNat = n := by
  rw [BitVec.toNat_ofNat, Nat.mod_eq_of_lt (by simpa [fits4] using h)]

section
variable {lo start n : Nat}

theorem extract_index_disjoint {c : Nat} (hc : fits4 c = true) (h : start + n ≤ lo ∨ lo + 4 ≤ start) :
    (placed c lo).extractLsb' start n = 0#n := extract_placed_disjoint (by simpa [fits4] using hc) h

@[simp] theorem extract_mode_disjoint (m : Mode) (h : start + n ≤ lo ∨ lo + 2 ≤ start) :
    (placed m.bits lo).extractLsb' start n = 0#n := extract_placed_disjoint (by cases m <;> decide) h

@[simp] theorem extract_alg_disjoint (a : AlgField) (h : start + n ≤ lo ∨ lo + 2 ≤ start) :
    (placed a.bits lo).extractLsb' start n = 0#n := extract_placed_disjoint (by cases a <;> decide) h

@[simp] theorem extract_dir_disjoint (d : Dir) (h : start + n ≤ lo ∨ lo + 1 ≤ start) :
    (placed d.bits lo).extractLsb' start n = 0#n := extract_placed_disjoint (by cases d <;> decide) h

@[simp] theorem extract_flag_disjoint (v : Bool) (h : start + n ≤ lo ∨ lo + 1 ≤ start) :
    (placed v.toNat lo).extractLsb' start n = 0#n := extract_placed_disjoint (by cases v <;> decide) h

end

theorem fieldMode_of_bits {w : Word} {m : Mode} (h : w.extractLsb' 16 2 = BitVec.ofNat 2 m.bits) :
    fieldMode w = m := by
  rw [fieldMode, h]
  cases m <;> rfl

theorem fieldAlg_of_bits {w : Word} {a : AlgField} (h : w.extractLsb' 18 2 = BitVec.ofNat 2 a.bits) :
    fieldAlg w = a := by
  rw [fieldAlg, h]
  cases a <;> rfl

theorem getLsbD_of_extract_one {w : Word} {j v : Nat} (h : w.extractLsb' j 1 = BitVec.ofNat 1 v) :
    w.getLsbD j = v.testBit 0 := by
  simpa only [BitVec.getLsbD_extractLsb', BitVec.getLsbD_ofNat, Nat.add_zero, Nat.lt_one_iff, decide_true,
    Bool.true_and] using congrArg (BitVec.getLsbD · 0) h

theorem fieldDir_of_bits {w : Word} {d : Dir} (h : w.extractLsb' 20 1 = BitVec.ofNat 1 d.bits) : fieldDir w = d := by
  rw [fieldDir, getLsbD_of_extract_one h]
  cases d <;> rfl

theorem fieldIvp_of_bits {w : Word} {v : Bool} (h : w.extractLsb' 21 1 = BitVec.ofNat 1 v.toNat) : fieldIvp w = v := by
  rw [fieldIvp, getLsbD_of_extract_one h]
  cases v <;> rfl

/-- The `CTX` field of a command that names one slot and nothing else. -/
theorem fieldCtx_ctxOnly (o : Opcode) {c : Nat} (hc : fits4 c = true) :
    fieldCtx (opcodeWord o ||| placed c 8) = c := by
  simp [fieldCtx, BitVec.extractLsb'_or, toNat_ofNat_of_fits4 hc]

/-- `mode.init`: each of its five fields is read where it was placed, and no other reaches into it. -/
theorem operandsOf_encode_modeInit {c : Nat} (a : AlgField) (m : Mode) (d : Dir) (v : Bool) (hc : fits4 c = true) :
    operandsOf .modeInit (encode (.modeInit c a m d v)) = .modeInit c a m d v := by
  have hctx : (encode (.modeInit c a m d v)).extractLsb' 8 4 = BitVec.ofNat 4 c := by
    simp [encode, BitVec.extractLsb'_or]
  have hmode : (encode (.modeInit c a m d v)).extractLsb' 16 2 = BitVec.ofNat 2 m.bits := by
    simp [encode, BitVec.extractLsb'_or, extract_index_disjoint hc]
  have halg : (encode (.modeInit c a m d v)).extractLsb' 18 2 = BitVec.ofNat 2 a.bits := by
    simp [encode, BitVec.extractLsb'_or, extract_index_disjoint hc]
  have hdir : (encode (.modeInit c a m d v)).extractLsb' 20 1 = BitVec.ofNat 1 d.bits := by
    simp [encode, BitVec.extractLsb'_or, extract_index_disjoint hc]
  have hivp : (encode (.modeInit c a m d v)).extractLsb' 21 1 = BitVec.ofNat 1 v.toNat := by
    simp [encode, BitVec.extractLsb'_or, extract_index_disjoint hc]
  rw [operandsOf, fieldCtx, hctx, toNat_ofNat_of_fits4 hc, fieldMode_of_bits hmode, fieldAlg_of_bits halg,
    fieldDir_of_bits hdir, fieldIvp_of_bits hivp]

theorem operandsOf_encode_hmacInit {c h : Nat} (hc : fits4 c = true) (hh : fits4 h = true) :
    operandsOf .hmacInit (encode (.hmacInit c h)) = .hmacInit c h := by
  simp [operandsOf, encode, fieldCtx, fieldHash, BitVec.extractLsb'_or,
    extract_index_disjoint hc, extract_index_disjoint hh, toNat_ofNat_of_fits4 hc, toNat_ofNat_of_fits4 hh]

theorem operandsOf_encode_hmacCopy {c c2 : Nat} (hc : fits4 c = true) (hc2 : fits4 c2 = true) :
    operandsOf .hmacCopy (encode (.hmacCopy c c2)) = .hmacCopy c c2 := by
  simp [operandsOf, encode, fieldCtx, fieldCtx2, BitVec.extractLsb'_or,
    extract_index_disjoint hc, extract_index_disjoint hc2, toNat_ofNat_of_fits4 hc, toNat_ofNat_of_fits4 hc2]

/-- The operands of a well-formed instruction are read back from its word (R101, R106). -/
theorem operandsOf_encode {i : Instr} (h : WellFormed i = true) : operandsOf (opcodeOfInstr i) (encode i) = i := by
  cases i with
  | nop => rfl
  | modeInit c a m d v => exact operandsOf_encode_modeInit a m d v h
  | modeUpdate c => exact congrArg Instr.modeUpdate (fieldCtx_ctxOnly .modeUpdate h)
  | modeFinal c => exact congrArg Instr.modeFinal (fieldCtx_ctxOnly .modeFinal h)
  | hmacInit c hash =>
    obtain ⟨hc, hh⟩ := Bool.and_eq_true_iff.1 h
    exact operandsOf_encode_hmacInit hc hh
  | hmacUpdate c => exact congrArg Instr.hmacUpdate (fieldCtx_ctxOnly .hmacUpdate h)
  | hmacFinal c => exact congrArg Instr.hmacFinal (fieldCtx_ctxOnly .hmacFinal h)
  | hmacCopy c c2 =>
    obtain ⟨hc, hc2⟩ := Bool.and_eq_true_iff.1 h
    exact operandsOf_encode_hmacCopy hc hc2
  | ctxRelease c => exact congrArg Instr.ctxRelease (fieldCtx_ctxOnly .ctxRelease h)

/-- Settles O2: the word carries the opcode and no bit outside its mask, and its operands are read back. -/
theorem decodeInvertsEncode : Obligations.DecodeInvertsEncode := by
  intro i h
  obtain ⟨hmask, hcode⟩ := encode_fits i h
  exact decode_eq_instr_iff.2 ⟨opcodeOfInstr i, hcode, hmask, (operandsOf_encode h).symm⟩

/-! Encoding a decoded word: each operand placed back is the word under the operand's part of `USED_MASK`. -/

section
variable (w : Word)

theorem placed_fieldCtx : placed (fieldCtx w) 8 = w &&& 0x00000F00#32 := placed_extract w 8 4

theorem placed_fieldCtx2 : placed (fieldCtx2 w) 12 = w &&& 0x0000F000#32 := placed_extract w 12 4

theorem placed_fieldHash : placed (fieldHash w) 24 = w &&& 0x0F000000#32 := placed_extract w 24 4

/-- A field of two bits has one of four values. -/
theorem two_bit_cases (x : BitVec 2) : x = 0#2 ∨ x = 1#2 ∨ x = 2#2 ∨ x = 3#2 := by
  revert x; decide

theorem bits_fieldMode : (fieldMode w).bits = (w.extractLsb' 16 2).toNat := by
  rcases two_bit_cases (w.extractLsb' 16 2) with h | h | h | h <;> simp [fieldMode, h, Mode.bits]

theorem bits_fieldAlg : (fieldAlg w).bits = (w.extractLsb' 18 2).toNat := by
  rcases two_bit_cases (w.extractLsb' 18 2) with h | h | h | h <;> simp [fieldAlg, h, AlgField.bits]

theorem toNat_extract_one (j : Nat) : (w.extractLsb' j 1).toNat = (w.getLsbD j).toNat := by
  have hbit : w.extractLsb' j 1 = BitVec.ofBool (w.getLsbD j) := by
    refine BitVec.eq_of_getLsbD_eq fun i hi => ?_
    simp [Nat.lt_one_iff.1 hi]
  rw [hbit, BitVec.toNat_ofBool]

theorem bits_fieldDir : (fieldDir w).bits = (w.extractLsb' 20 1).toNat := by
  rw [toNat_extract_one, fieldDir]
  cases w.getLsbD 20 <;> rfl

theorem placed_fieldMode : placed (fieldMode w).bits 16 = w &&& 0x00030000#32 := by
  rw [bits_fieldMode]; exact placed_extract w 16 2

theorem placed_fieldAlg : placed (fieldAlg w).bits 18 = w &&& 0x000C0000#32 := by
  rw [bits_fieldAlg]; exact placed_extract w 18 2

theorem placed_fieldDir : placed (fieldDir w).bits 20 = w &&& 0x00100000#32 := by
  rw [bits_fieldDir]; exact placed_extract w 20 1

theorem placed_fieldIvp : placed (fieldIvp w).toNat 21 = w &&& 0x00200000#32 := by
  rw [fieldIvp, ← toNat_extract_one]; exact placed_extract w 21 1

theorem opcodeWord_of_code {o : Opcode} (h : w.extractLsb' 0 8 = o.code) : opcodeWord o = w &&& 0x000000FF#32 := by
  have hplaced : opcodeWord o = placed o.code.toNat 0 := by simp [opcodeWord, placed, BitVec.ofNat_toNat]
  rw [hplaced, ← h]; exact placed_extract w 0 8

/-- The operands of a word of a known opcode, encoded again, are the word under `USED_MASK` (R101, R104). -/
theorem encode_operandsOf {o : Opcode} (h : w.extractLsb' 0 8 = o.code) :
    encode (operandsOf o w) = w &&& usedMask o := by
  have hopc := opcodeWord_of_code w h
  cases o <;>
    simp only [operandsOf, encode, hopc, placed_fieldCtx, placed_fieldCtx2, placed_fieldHash, placed_fieldMode,
      placed_fieldAlg, placed_fieldDir, placed_fieldIvp, ← BitVec.and_or_distrib_left] <;>
    rfl

theorem wellFormed_operandsOf (o : Opcode) : WellFormed (operandsOf o w) = true := by
  have hctx : fieldCtx w < 16 := (w.extractLsb' 8 4).isLt
  have hctx2 : fieldCtx2 w < 16 := (w.extractLsb' 12 4).isLt
  have hhash : fieldHash w < 16 := (w.extractLsb' 24 4).isLt
  cases o <;> simp [operandsOf, WellFormed, fits4, hctx, hctx2, hhash]

end

/-- A word with no bit outside a mask is itself under the mask. -/
theorem and_eq_self_of_and_not {w m : Word} (h : w &&& ~~~m = 0) : w &&& m = w := by
  have hsplit : (w &&& m) ||| (w &&& ~~~m) = w := by
    rw [← BitVec.and_or_distrib_left, BitVec.or_not_self, BitVec.and_allOnes]
  simpa [h] using hsplit

/-- Settles O3: placing every operand back gives the word under its `USED_MASK`, outside which it has no bit. -/
theorem encodeInvertsDecode : Obligations.EncodeInvertsDecode := by
  intro w i h
  obtain ⟨o, hcode, hmask, rfl⟩ := decode_eq_instr_iff.1 h
  exact ⟨(encode_operandsOf w hcode).trans (and_eq_self_of_and_not hmask), wellFormed_operandsOf w o⟩

/-- Settles O1, word by word. -/
theorem listedWordsDecode : Obligations.ListedWordsDecode := by
  unfold Obligations.ListedWordsDecode
  decide

end Sys2Proof

namespace Sys2Proof.Machine

/-! The words of `STATUS` and `HWCFG`: fields in their places too. -/

/-- `HWCFG` as three placed fields (R40). -/
theorem hwcfgWord_eq (hw : HwConfig) :
    hwcfgWord hw = placed hw.nctx 0 ||| placed hw.nhash 8 ||| placed (hw.dbufBytes / 16) 16 := by
  simp [hwcfgWord, placed]

/-- Settles O17: each parameter fits its field. -/
theorem hwcfgWordFields : Obligations.HwcfgWordFields := by
  intro hw hlegal
  simp only [HwConfig.legal, Bool.and_eq_true, decide_eq_true_eq, beq_iff_eq] at hlegal
  obtain ⟨⟨⟨⟨⟨⟨-, hnctx⟩, -⟩, hnhash⟩, hmul⟩, -⟩, hbytes⟩ := hlegal
  have h1 : hw.nctx < 2 ^ 8 := by omega
  have h2 : hw.nhash < 2 ^ 8 := by omega
  have h3 : hw.dbufBytes / 16 < 2 ^ 16 := by omega
  rw [hwcfgWord_eq]
  simp only [BitVec.extractLsb'_or]
  refine ⟨?_, ?_, ?_⟩
  · rw [extract_placed_same (by decide), extract_placed_disjoint h2 (by decide), extract_placed_disjoint h3 (by decide)]
    simpa using Nat.mod_eq_of_lt h1
  · rw [extract_placed_same (by decide), extract_placed_disjoint h1 (by decide), extract_placed_disjoint h3 (by decide)]
    simpa using Nat.mod_eq_of_lt h2
  · rw [extract_placed_same (by decide), extract_placed_disjoint h1 (by decide), extract_placed_disjoint h2 (by decide)]
    simp
    omega

/-- `STATUS` as four placed fields (R34). -/
theorem statusWord_eq (st : StatusReg) :
    st.word = placed st.busy.toNat 0 ||| placed st.done.toNat 1 ||| placed st.overrun.toNat 2 |||
      placed st.err.toByte.toNat 8 := by
  simp [StatusReg.word, flagBit, placed, BitVec.ofNat_toNat]

/-- Settles O16: each field is read where `STATUS` places it, and no other reaches into it. -/
theorem statusWordFields : Obligations.StatusWordFields := by
  intro st
  have herr : st.err.toByte.toNat < 2 ^ 8 := st.err.toByte.isLt
  rw [statusWord_eq]
  refine ⟨?_, ?_, ?_, ?_, ?_, ?_⟩
  · simp only [BitVec.getLsbD_or, getLsbD_placed, Nat.testBit_bool_toNat]; simp
  · simp only [BitVec.getLsbD_or, getLsbD_placed, Nat.testBit_bool_toNat]; simp
  · simp only [BitVec.getLsbD_or, getLsbD_placed, Nat.testBit_bool_toNat]; simp
  · simp [BitVec.extractLsb'_or, extract_placed_disjoint herr]
  · simp [BitVec.extractLsb'_or, extract_placed_disjoint herr]
  · calc _ = st.err.toByte := by simp [BitVec.extractLsb'_or]
      _ = _ := by cases st.err <;> rfl

end Sys2Proof.Machine
end

section
/-! PROOFS. The invariant of the machine: it holds at reset, and every move keeps it (10_state.md sections 2 to 4,
rules R53, R213). -/

namespace Sys2Proof.Machine

/-- The reset table gives a good state for every legal configuration (R53). -/
theorem resetWith_inv (P : Primitives) {hw : HwConfig} (draw : Nat) (h : hw.legal = true) :
    (State.resetWith hw draw).Inv P where
  hwLegal := h
  slotCount := List.length_replicate
  slotsGood sl hsl := by
    rw [List.eq_of_mem_replicate hsl]
    exact cleared_good P hw
  busyPhase := ⟨nofun, nofun⟩
  busyNotDone := nofun
  notDone _ := ⟨rfl, rfl⟩
  errNoResult _ := rfl
  resultFits := Nat.zero_le _
  dbufCanonical := rfl
  dbufInside := rfl

/-- Settles O46: the parameters of `State.reset` are legal. -/
theorem resetStateIsSafe : Obligations.ResetStateIsSafe :=
  ⟨fun P _ draw h => resetWith_inv P draw h, resetWith_inv Config.primitives 0 (by decide)⟩

section
variable {P : Primitives} {s : State}

/-- The invariant says nothing of the argument registers, `OVERRUN`, the moves to come and the answers given. -/
theorem inv_withFreeFields (h : s.Inv P) (args : ArgRegs) (overrun : Bool) (moves : List Move)
    (responses : List Response) :
    State.Inv P { s.withHostWrites args overrun with moves := moves, responses := responses } :=
  ⟨h.hwLegal, h.slotCount, h.slotsGood, h.busyPhase, h.busyNotDone, h.notDone, h.errNoResult, h.resultFits,
    h.dbufCanonical, h.dbufInside⟩

theorem inv_withMovesResponses (h : s.Inv P) (moves : List Move) (responses : List Response) :
    State.Inv P { s with moves := moves, responses := responses } :=
  inv_withFreeFields h s.args s.status.overrun moves responses

theorem withHostWrites_inv (h : s.Inv P) (args : ArgRegs) (overrun : Bool) : (s.withHostWrites args overrun).Inv P :=
  inv_withFreeFields h args overrun s.moves s.responses

theorem resetInput_inv (h : s.Inv P) : s.resetInput.Inv P :=
  inv_withMovesResponses (resetWith_inv P (s.draws + 1) h.hwLegal) s.moves s.responses

/-! Host accesses -/

/-- An accepted `CMD` write starts a command with no result yet (R35). -/
theorem acceptCmd_inv (h : s.Inv P) (w : Word) : (s.acceptCmd w).Inv P where
  hwLegal := h.hwLegal
  slotCount := h.slotCount
  slotsGood := h.slotsGood
  busyPhase := ⟨fun _ => rfl, fun _ => rfl⟩
  busyNotDone _ := rfl
  notDone _ := ⟨rfl, rfl⟩
  errNoResult _ := rfl
  resultFits := Nat.zero_le _
  dbufCanonical := h.dbufCanonical
  dbufInside := h.dbufInside

/-- Every register write accepts a command or changes at most the argument registers and `OVERRUN` (R33 to R38). -/
theorem writeReg_cases (s : State) (r : RegName) (w : Word) :
    s.writeReg r w = s.acceptCmd w ∨ ∃ args overrun, s.writeReg r w = s.withHostWrites args overrun := by
  cases r with
  | cmd =>
    cases hbusy : s.status.busy with
    | false => exact .inl (writeCmd_of_not_busy s w hbusy)
    | true => exact .inr ⟨_, _, writeCmd_of_busy s w hbusy⟩
  | status => exact .inr ⟨s.args, _, congrArg (fun status => { s with status := status }) (hostWrite_eq s.status w)⟩
  | _ => exact .inr ⟨_, s.status.overrun, rfl⟩

theorem writeReg_inv (h : s.Inv P) (r : RegName) (w : Word) : (s.writeReg r w).Inv P := by
  rcases writeReg_cases s r w with heq | ⟨args, overrun, heq⟩
  · exact heq ▸ acceptCmd_inv h w
  · exact heq ▸ withHostWrites_inv h args overrun

/-- Storing bytes inside DBUF keeps its canonical form (R71). -/
theorem storeBytes_inv (h : s.Inv P) {off : Nat} {bs : Bytes} (hb : bs = [] ∨ off + bs.length ≤ s.hw.dbufBytes) :
    State.Inv P { s with dbuf := s.dbuf.storeBytes off bs } :=
  ⟨h.hwLegal, h.slotCount, h.slotsGood, h.busyPhase, h.busyNotDone, h.notDone, h.errNoResult, h.resultFits,
    Memory.wf_storeBytes h.dbufCanonical off bs, Memory.below_storeBytes h.dbufInside off bs hb⟩

@[simp] theorem length_lanesOf (v : Word) (n : Nat) : (lanesOf v n).length = n := by simp [lanesOf]

theorem access_inv (h : s.Inv P) (a : Access) : (s.access a).1.Inv P := by
  cases a with
  | read addr n => rwa [access_read_state]
  | write addr n v =>
    cases ht : s.target addr n with
    | reg r => simpa only [State.access, ht] using writeReg_inv h r v
    | buffer off =>
      have hin : off + (lanesOf v n).length ≤ s.hw.dbufBytes := by
        simpa using (target_buffer_inside ht).1
      simpa only [State.access, ht] using storeBytes_inv h (.inr hin)
    | busError => rwa [access_write_busError v ht]

theorem hostMove_inv (h : s.Inv P) (a : Access) : (s.hostMove a).Inv P :=
  inv_withMovesResponses (access_inv h a) _ _

/-! The engine -/

/-- Ending with an error performs R37 and nothing else (R224). -/
theorem raise_inv (h : s.Inv P) (code : StatusCode) : (s.raise code).Inv P where
  hwLegal := h.hwLegal
  slotCount := h.slotCount
  slotsGood := h.slotsGood
  busyPhase := ⟨nofun, nofun⟩
  busyNotDone := nofun
  notDone := nofun
  errNoResult _ := rfl
  resultFits := Nat.zero_le _
  dbufCanonical := h.dbufCanonical
  dbufInside := h.dbufInside

/-- The register of a new context: `B` bytes, zeros for ECB (R140). -/
theorem length_initialReg (s : State) (alg : Alg) (m : Mode) : (s.initialReg alg m).length = blockBytes alg := by
  unfold State.initialReg
  split
  · exact length_zeros _
  · exact length_memRead s _ _

variable {i : Instr} {n off : Nat} {slots : List Slot} {out : Bytes}

/-- Every command that ends with OK leaves the slot file alone or puts a good slot into it (R44 to R49). -/
theorem completionOf_slot_good (hs : s.Inv P) (hd : completionOf P s i = .done n slots off out) :
    slots = s.slots ∨ ∃ c sl, slots = s.slotsWith c sl ∧ sl.Good P s.hw := by
  cases i with
  | nop => exact .inl (nop_done hd).2.2
  | modeInit c a m d v =>
    obtain ⟨-, -, -, -, alg, -, hkey, rfl⟩ := modeInit_done hd
    refine .inr ⟨c, _, rfl, openMode_good P s.hw (by simpa using hkey) (length_initialReg s alg m) fun hm => ?_⟩
    simp [State.initialReg, hm]
  | modeUpdate c =>
    obtain ⟨hc, hk, hst, -, -, -, rfl, -⟩ := modeUpdate_done hd
    have hg := slot_good hs hc
    have hactive := active_of_not_finalized hg (by simp [hk]) hst
    exact .inr ⟨c, _, rfl, absorb_good P s.hw hg hk hactive _⟩
  | modeFinal c =>
    obtain ⟨hc, hk, -, -, -, -, rfl, -⟩ := modeFinal_done hd
    exact .inr ⟨c, _, rfl, finalized_good P s.hw (slot_good hs hc) (by simp [hk])⟩
  | hmacInit c h =>
    obtain ⟨-, -, -, -, hh, rfl⟩ := hmacInit_done hd
    exact .inr ⟨c, _, rfl, openHmac_good P s.hw _ hh⟩
  | hmacUpdate c =>
    obtain ⟨-, -, hc, hk, hst, rfl⟩ := hmacUpdate_done hd
    have hg := slot_good hs hc
    have hactive := active_of_not_finalized hg (by simp [hk]) hst
    exact .inr ⟨c, _, rfl, feed_good P s.hw hg hk hactive _⟩
  | hmacFinal c =>
    obtain ⟨hc, hk, -, -, -, -, rfl, -⟩ := hmacFinal_done hd
    exact .inr ⟨c, _, rfl, finalized_good P s.hw (slot_good hs hc) (by simp [hk])⟩
  | hmacCopy c c2 =>
    obtain ⟨-, -, hc, -, -, -, -, -, rfl⟩ := hmacCopy_done hd
    exact .inr ⟨c2, _, rfl, slot_good hs hc⟩
  | ctxRelease c =>
    obtain ⟨-, -, -, rfl⟩ := ctxRelease_done hd
    exact .inr ⟨c, _, rfl, cleared_good P s.hw⟩

/-- A command that ends with OK leaves a slot file of the same length, with good slots only. -/
theorem completionOf_slots_good (hs : s.Inv P) (hd : completionOf P s i = .done n slots off out) :
    slots.length = s.hw.nctx ∧ ∀ sl ∈ slots, sl.Good P s.hw := by
  rcases completionOf_slot_good hs hd with rfl | ⟨c, sl, rfl, hgood⟩
  · exact ⟨hs.slotCount, hs.slotsGood⟩
  · refine ⟨(List.length_set ..).trans hs.slotCount, fun sl' hsl' => ?_⟩
    rcases List.mem_or_eq_of_mem_set hsl' with hmem | rfl
    · exact hs.slotsGood sl' hmem
    · exact hgood

/-- The output of a command that ends with OK lies inside DBUF (R79, R81). -/
theorem completionOf_output_inside (hs : s.Inv P) (hd : completionOf P s i = .done n slots off out) :
    out = [] ∨ off + out.length ≤ s.hw.dbufBytes := by
  have hlen := completionOf_output_length hs hd
  rcases (completionOf_done hd).2 with ⟨-, hout⟩ | ⟨rfl, hv⟩
  · exact .inl hout
  · rcases (validRegion_iff s _ _).1 hv with rfl | hle
    · exact .inl (List.length_eq_zero_iff.1 hlen)
    · exact .inr (hlen ▸ hle)

theorem finish_inv (hs : s.Inv P) (i : Instr) : (s.finish (completionOf P s i)).Inv P := by
  cases hd : completionOf P s i with
  | raised code => exact raise_inv hs code
  | done n slots off out =>
    have hstore := storeBytes_inv hs (completionOf_output_inside hs hd)
    obtain ⟨hcount, hgood⟩ := completionOf_slots_good hs hd
    have hfits : n ≤ s.hw.dbufBytes := completionOf_result_le hd
    exact {
      hwLegal := hs.hwLegal
      slotCount := hcount
      slotsGood := hgood
      busyPhase := ⟨nofun, nofun⟩
      busyNotDone := nofun
      notDone := nofun
      errNoResult := fun herr => absurd rfl herr
      resultFits := (finish_done_resultLen_toNat hs hd).trans_le hfits
      dbufCanonical := hstore.dbufCanonical
      dbufInside := hstore.dbufInside }

end

theorem engineTurn_safe {s t : State} (hs : s.Safe) (h : engineTurn s = .next t) : t.Safe := by
  rcases engineTurn_cases h with ⟨-, rfl⟩ | ⟨-, ⟨i, -, rfl⟩ | ⟨e, -, rfl⟩⟩
  · exact hs
  · exact finish_inv hs i
  · exact raise_inv hs .badCommand

/-- Settles O47, move by move. -/
theorem stepKeepsInvariant : Obligations.StepKeepsInvariant := by
  intro s t hs hstep
  have hrest : ∀ rest, State.Safe { s with moves := rest } := fun rest => inv_withMovesResponses hs rest s.responses
  rcases step_cases hstep with ⟨-, h⟩ | ⟨rest, -, h⟩ | ⟨a, rest, -, rfl⟩ | ⟨rest, -, rfl⟩
  · exact engineTurn_safe hs h
  · exact engineTurn_safe (hrest rest) h
  · exact hostMove_inv (hrest rest) a
  · exact resetInput_inv (hrest rest)

/-- A good slot without an ACTIVE context holds no secret: it is cleared or secret-cleared (R48, R49, R213). -/
theorem secretCleared_of_not_active {P : Primitives} {hw : HwConfig} {sl : Slot} (h : sl.Good P hw)
    (hst : sl.st ≠ .active) : sl.secretCleared = sl := by
  cases hcase : sl.st with
  | free => rw [h.freeCleared hcase]; rfl
  | active => exact absurd hcase hst
  | finalized => exact h.finalizedCleared hcase

/-- Settles O49: the state after the step is good, and there such a slot is its own secret-cleared form. -/
theorem noSecretsOutsideActiveSlots : Obligations.NoSecretsOutsideActiveSlots := by
  intro s t k hs hstep hk hst
  have hgood := slot_good (stepKeepsInvariant s t hs hstep) hk
  rw [← secretCleared_of_not_active hgood hst]
  exact ⟨rfl, rfl, rfl, rfl, rfl, rfl⟩

end Sys2Proof.Machine
end

section
/-! PROOFS. Who moves and what a move does (10_state.md rule R42, 20_memory.md rule R83, 70_reset_and_hazards.md rule
R250). -/

namespace Sys2Proof.Machine

/-! The step as its move -/

theorem step_of_no_moves {s : State} (h : s.moves = []) : step s = engineTurn s := by
  simp only [step, advance, h]

theorem step_of_moves {s : State} {m : Move} {rest : List Move} (h : s.moves = m :: rest) :
    step s = performMove m { s with moves := rest } := by
  simp only [step, advance, h]

theorem engineTurn_of_idle {s : State} (h : s.phase = .idle) : engineTurn s = .next s := by
  simp only [engineTurn, h]

theorem engineTurn_of_instr {s : State} {i : Instr} (h : s.phase = .busy) (hi : decode s.cmdl.word = .instr i) :
    engineTurn s = exec i s := by
  simp only [engineTurn, h, runCommand, hi]

theorem engineTurn_of_reject {s : State} {e : DecodeError} (h : s.phase = .busy)
    (he : decode s.cmdl.word = .reject e) : engineTurn s = .next (s.raise .badCommand) := by
  simp only [engineTurn, h, runCommand, he]

theorem tableWord_toNat (w : Word) : tableWord 32 w.toNat = w := by
  rw [tableWord, Nat.mod_eq_of_lt w.isLt, BitVec.ofNat_toNat, BitVec.setWidth_eq]

/-- Settles O5: the move is the engine's turn, which runs the latched word's instruction. -/
theorem stepRunsDecodedCommand : Obligations.StepRunsDecodedCommand := by
  refine ⟨fun s i hp hi hm => ?_, fun s i rest hp hi hm => ?_, fun s i w hi => ?_⟩
  · rw [step_of_no_moves hm, engineTurn_of_instr hp hi]
  · rw [step_of_moves hm]
    exact engineTurn_of_instr hp hi
  · rw [State.withFetchWord, tableWord_toNat]
    exact engineTurn_of_instr (s := s.acceptCmd w) rfl hi

/-- Settles O6: an illegal word raises `BadCommand`. -/
theorem illegalWordEndsWithBadCommand : Obligations.IllegalWordEndsWithBadCommand := by
  refine fun s e hp he => ⟨fun hm => ?_, fun rest hm => ?_⟩
  · rw [step_of_no_moves hm, engineTurn_of_reject hp he, raise_eq_afterError]
  · rw [step_of_moves hm]
    exact engineTurn_of_reject hp he

/-- Settles O7: the engine has no step in phase IDLE. -/
theorem idleEngineTurnChangesNothing : Obligations.IdleEngineTurnChangesNothing := by
  refine fun s hp => ⟨fun hm => ?_, fun rest hm => ?_⟩
  · rw [step_of_no_moves hm, engineTurn_of_idle hp]
  · rw [step_of_moves hm]
    exact engineTurn_of_idle hp

/-- Settles O10: a host move is its access. -/
theorem stepPerformsHostAccess : Obligations.StepPerformsHostAccess :=
  fun _ _ _ hm => step_of_moves hm

theorem engineTurn_answers (s : State) : ∃ t, engineTurn s = .next t := by
  cases hp : s.phase with
  | idle => exact ⟨s, engineTurn_of_idle hp⟩
  | busy =>
    cases hd : decode s.cmdl.word with
    | instr i => exact ⟨_, (engineTurn_of_instr hp hd).trans (exec_eq i s)⟩
    | reject e => exact ⟨_, engineTurn_of_reject hp hd⟩

theorem performMove_answers (m : Move) (s : State) : ∃ t, performMove m s = .next t := by
  cases m with
  | host a => exact ⟨_, rfl⟩
  | engine => exact engineTurn_answers s
  | reset => exact ⟨_, rfl⟩

/-- Settles O8: every move answers a next state. -/
theorem everyStepAnswersNextState : Obligations.EveryStepAnswersNextState := by
  intro s
  cases hm : s.moves with
  | nil => rw [step_of_no_moves hm]; exact engineTurn_answers s
  | cons m rest => rw [step_of_moves hm]; exact performMove_answers m _

/-! Completion -/

/-- The engine's turn ends a BUSY phase and leaves the moves to come alone (R42). -/
theorem engineTurn_idle_moves {s t : State} (h : engineTurn s = .next t) : t.phase = .idle ∧ t.moves = s.moves := by
  rcases engineTurn_cases h with ⟨hp, rfl⟩ | ⟨-, ⟨i, -, rfl⟩ | ⟨e, -, rfl⟩⟩
  · exact ⟨hp, rfl⟩
  · exact ⟨finish_phase s _, finish_moves s _⟩
  · exact ⟨rfl, rfl⟩

/-- Every step takes the first of the moves to come, if there is one. -/
theorem step_moves {s t : State} (h : step s = .next t) : t.moves = s.moves.tail := by
  rcases step_cases h with ⟨hm, he⟩ | ⟨rest, hm, he⟩ | ⟨a, rest, hm, rfl⟩ | ⟨rest, hm, rfl⟩
  · rw [(engineTurn_idle_moves he).2, hm]; rfl
  · rw [(engineTurn_idle_moves he).2, hm]; rfl
  · rw [hm]; exact access_moves _ a
  · rw [hm]; rfl

theorem run_succ {s u : State} (k : Nat) (h : step s = .next u) :
    Host.Core.run Sys2Proof.core (k + 1) s = Host.Core.run Sys2Proof.core k u := by
  have hcore : Sys2Proof.core.step s = .next u := h
  simp only [Host.Core.run, hcore]

/-- Settles O9, by induction on the moves to come; the step after the last of them is the engine's turn. -/
theorem everyAcceptedCommandCompletes : Obligations.EveryAcceptedCommandCompletes := by
  intro s
  induction hn : s.moves.length generalizing s with
  | zero =>
    have hm : s.moves = [] := List.length_eq_zero_iff.1 hn
    obtain ⟨t, ht⟩ := engineTurn_answers s
    obtain ⟨hidle, hmoves⟩ := engineTurn_idle_moves ht
    exact ⟨t, run_succ 0 ((step_of_no_moves hm).trans ht), hidle, hmoves.trans hm⟩
  | succ n ih =>
    obtain ⟨u, hu⟩ := everyStepAnswersNextState s
    have hlen : u.moves.length = n := by rw [step_moves hu, List.length_tail, hn]; rfl
    obtain ⟨t, hrun, hend⟩ := ih u hlen
    exact ⟨t, (run_succ (n + 1) hu).trans hrun, hend⟩

/-! Reset -/

theorem slot_of_cleared_file {s : State} {n : Nat} (h : s.slots = List.replicate n Slot.cleared) (k : Nat) :
    s.slot k = Slot.cleared := by
  rw [State.slot, h, List.getD_eq_getElem?_getD, List.getElem?_replicate]
  split <;> rfl

theorem statusReset_word : StatusReg.reset.word = 0 := by decide

/-- Settles O48: the state after the move is `State.resetInput`. -/
theorem resetInputFromAnyState : Obligations.ResetInputFromAnyState := by
  intro s rest hm
  exact ⟨_, step_of_moves hm, statusReset_word, rfl, rfl, rfl, rfl, List.length_replicate,
    fun k => slot_of_cleared_file (n := s.hw.nctx) rfl k, rfl, fun _ => rfl, rfl, rfl⟩

end Sys2Proof.Machine
end

section
/-! PROOFS. What the bus answers to each access, register by register and in DBUF (10_state.md rules R33 to R40,
20_memory.md rules R73 to R76, R82). -/

namespace Sys2Proof.Machine

/-! Registers -/

theorem access_read_reg (s : State) {off : Nat} {r : RegName} (h : regAt off = some r) :
    s.access (.read (s.hw.base + off) 4) = (s, .data (s.readReg r)) := by
  simp only [State.access, target_of_regAt s h]

/-- Settles O15, register by register. -/
theorem registerReads : Obligations.RegisterReads := fun s =>
  ⟨access_read_reg s (r := .cmd) rfl, access_read_reg s (r := .status) rfl, access_read_reg s (r := .arg0) rfl,
    access_read_reg s (r := .arg1) rfl, access_read_reg s (r := .arg2) rfl, access_read_reg s (r := .arg3) rfl,
    access_read_reg s (r := .resultLen) rfl, access_read_reg s (r := .hwcfg) rfl⟩

/-- Settles O14, register by register. -/
theorem argAndReadOnlyRegisterWrites : Obligations.ArgAndReadOnlyRegisterWrites := fun s w =>
  ⟨access_write_reg s (r := .arg0) w rfl, access_write_reg s (r := .arg1) w rfl,
    access_write_reg s (r := .arg2) w rfl, access_write_reg s (r := .arg3) w rfl,
    access_write_reg s (r := .resultLen) w rfl, access_write_reg s (r := .hwcfg) w rfl⟩

/-- Settles O13: the access is the `STATUS` register's write. -/
theorem statusWriteClearsOnlyOverrun : Obligations.StatusWriteClearsOnlyOverrun := by
  intro s w
  calc s.access (.write (s.hw.base + 0x004) 4 w)
      = ({ s with status := s.status.hostWrite w }, .written) := access_write_reg s (r := .status) w rfl
    _ = _ := by rw [hostWrite_eq]

/-- Settles O22, whatever the target of the read. -/
theorem readsHaveNoSideEffect : Obligations.ReadsHaveNoSideEffect := access_read_state

/-! Bus errors -/

theorem write_response_eq_busError_iff (s : State) (addr n : Nat) (v : Word) :
    (s.access (.write addr n v)).2 = .busError ↔ s.target addr n = .busError := by
  rw [write_response_eq]
  split <;> simp [*]

/-- Which accesses to the register window land nowhere (R74, R75). -/
theorem target_register_busError_iff (s : State) {off : Nat} (n : Nat) (h : off < 0x1000) :
    s.target (s.hw.base + off) n = .busError ↔ ¬(n = 4 ∧ off % 4 = 0 ∧ off < 0x20) := by
  rw [target_register s n h, ← regAt_isSome]
  cases regAt off with
  | none => simp
  | some r => by_cases hn : n = 4 <;> simp [hn]

/-- Which accesses to DBUF land nowhere (R76, R77). -/
theorem target_dbuf_busError_iff (s : State) (d n : Nat) :
    s.target (s.hw.base + 0x1000 + d) n = .busError ↔
      ¬((n = 1 ∨ n = 2 ∨ n = 4) ∧ d % n = 0 ∧ d + n ≤ s.hw.dbufBytes ∧ s.status.busy = false) := by
  rw [target_dbuf]
  split <;> simp [*]

theorem target_below_base {s : State} {addr : Nat} (n : Nat) (h : addr < s.hw.base) :
    s.target addr n = .busError := by
  simp only [State.target, if_pos h]

/-- A bus error has no effect (R73). -/
theorem access_of_busError {s : State} {a : Access} (h : (s.access a).2 = .busError) : (s.access a).1 = s := by
  cases a with
  | read addr n => exact access_read_state s addr n
  | write addr n v => rw [access_write_busError v ((write_response_eq_busError_iff s addr n v).1 h)]

/-- Settles O18: where an access lands alone decides whether it ends with a bus error. -/
theorem busErrorsExactly : Obligations.BusErrorsExactly := by
  refine fun s n v => ⟨fun off hoff => ?_, fun d => ?_, fun addr haddr => ?_, fun a => access_of_busError⟩
  · have htarget := target_register_busError_iff s n hoff
    exact ⟨(read_response_eq_busError_iff ..).trans htarget, (write_response_eq_busError_iff ..).trans htarget⟩
  · have htarget := target_dbuf_busError_iff s d n
    exact ⟨(read_response_eq_busError_iff ..).trans htarget, (write_response_eq_busError_iff ..).trans htarget⟩
  · have htarget := target_below_base n haddr
    exact ⟨(read_response_eq_busError_iff ..).2 htarget, (write_response_eq_busError_iff ..).2 htarget⟩

/-! DBUF -/

theorem target_dbuf_of_legal {s : State} {d n : Nat} (hn : n = 1 ∨ n = 2 ∨ n = 4) (hd : d % n = 0)
    (hin : d + n ≤ s.hw.dbufBytes) (hidle : s.status.busy = false) :
    s.target (s.hw.base + 0x1000 + d) n = .buffer d := by
  rw [target_dbuf, if_pos ⟨hn, hd, hin, hidle⟩]

/-- Settles O20: byte lane `i` of the word that bytes make is byte `i`. -/
theorem dbufReadIsLittleEndian : Obligations.DbufReadIsLittleEndian := by
  intro s n d hn hd hin hidle
  have hlanes : ∀ i, lane (wordOf (s.memRead d n)) i = (s.memRead d n).getD i 0 :=
    lane_wordOf (by rw [length_memRead]; omega)
  refine ⟨wordOf (s.memRead d n), ?_, fun i hi => ?_, fun i hi => ?_⟩
  · simp only [State.access, target_dbuf_of_legal hn hd hin hidle]
  · exact (hlanes i).trans (getD_memRead s d hi)
  · exact (hlanes i).trans (List.getD_eq_default _ _ (by rwa [length_memRead]))

theorem getD_lanesOf (v : Word) {n i : Nat} (h : i < n) : (lanesOf v n).getD i 0 = lane v i := by
  simp [lanesOf, h]

/-- Settles O21: the write stores its lanes as consecutive bytes. -/
theorem dbufWriteIsLittleEndian : Obligations.DbufWriteIsLittleEndian := by
  intro s n d v hn hd hin hidle
  have hwrites : WritesExactly s { s with dbuf := s.dbuf.storeBytes d (lanesOf v n) } d (lanesOf v n) :=
    writesExactly_of_store rfl rfl
  obtain ⟨houtside, hinside⟩ := hwrites
  rw [length_lanesOf] at houtside hinside
  have haccess : s.access (.write (s.hw.base + 0x1000 + d) n v) =
      ({ s with dbuf := s.dbuf.storeBytes d (lanesOf v n) }, .written) := by
    simp only [State.access, target_dbuf_of_legal hn hd hin hidle]
  exact ⟨_, haccess, rfl, fun i hi => (hinside i hi).trans (getD_lanesOf v hi), houtside⟩

end Sys2Proof.Machine
end

section
/-! PROOFS. Where each command completes and with which error it ends, check by check (40_mode_engine.md section 3,
41_hmac_engine.md section 2, 42_context_control.md; rule R223). -/

namespace Sys2Proof.Machine

/-! How an execution ends, from how its command's rule ends -/

section
variable {s : State} {i : Instr} {code : StatusCode} {n off : Nat} {slots : List Slot} {out : Bytes}

theorem exec_of_raised (h : completionOf Config.primitives s i = .raised code) :
    exec i s = .next (s.afterError code) := by
  rw [exec_eq, h]; rfl

/-- A command with no output (R37). -/
theorem exec_of_done_nothing (h : completionOf Config.primitives s i = .done n slots off []) :
    exec i s = .next (s.afterOk n slots) := by
  rw [exec_eq, h]; rfl

theorem exec_of_done (h : completionOf Config.primitives s i = .done n slots off out) :
    ∃ t, exec i s = .next t ∧ EndsOkWriting s t n slots off out :=
  ⟨_, (exec_eq i s).trans (by rw [h]), rfl, finish_done_writes s n slots off out⟩

end

/-! The checks of the commands -/

section
variable {s : State} {k : Kind} {c off n : Nat}

theorem slotFree_of_hasFree (h : s.HasFree c) : s.slotFree c = true := (slotFree_iff s c).2 h

theorem slotFree_of_not_hasFree (h : ¬ s.HasFree c) : s.slotFree c = false :=
  Bool.eq_false_iff.2 (mt (slotFree_iff s c).1 h)

theorem validRegion_of_inRange (h : s.InRange off n) : s.validRegion off n = true := (validRegion_iff s off n).2 h

theorem validRegion_of_not_inRange (h : ¬ s.InRange off n) : s.validRegion off n = false :=
  Bool.eq_false_iff.2 (mt (validRegion_iff s off n).1 h)

theorem contextOf_of_hasActive (h : s.HasActive k c) : s.contextOf k c = .slot (s.slot c) :=
  contextOf_active h.1 h.2.1 h.2.2

theorem contextOf_of_badContext (h : s.hw.nctx ≤ c ∨ (s.slot c).kind ≠ k) :
    s.contextOf k c = .raised .badContext := by
  have hbad : (!s.hasSlot c || decide ((s.slot c).kind ≠ k)) = true := by
    simpa [State.hasSlot, Nat.not_lt] using h
  simp only [State.contextOf, hbad, if_true]

theorem contextOf_of_finalized (hc : c < s.hw.nctx) (hk : (s.slot c).kind = k) (hst : (s.slot c).st = .finalized) :
    s.contextOf k c = .raised .contextFinalized := by
  simp [State.contextOf, State.hasSlot, hc, hk, hst]

end

/-! `nop` and `ctx.release` -/

/-- Settles O25: the rule of `nop` is `done(0)` with no output. -/
theorem nopCompletes : Obligations.NopCompletes := fun _ => exec_of_done_nothing (i := .nop) rfl

/-- Settles O26, by whether the slot exists. -/
theorem ctxReleaseCompletes : Obligations.CtxReleaseCompletes := by
  refine fun c s => ⟨fun hc => exec_of_done_nothing (off := 0) ?_, fun hc => exec_of_raised ?_⟩
  · simp [completionOf, ctxRelease, State.hasSlot, hc, State.slotsWith]
  · simp [completionOf, ctxRelease, State.hasSlot, Nat.not_lt.2 hc]

/-! `mode.init` -/

theorem algOfField_eq_some_iff (a : AlgField) (alg : Alg) :
    algOfField a = some alg ↔ a = .aes ∧ alg = .aes ∨ a = .tdes ∧ alg = .tdes := by
  cases a <;> cases alg <;> simp [algOfField]

/-- A register that holds `a` reads as `a`, with zeros past it (R9). -/
theorem getD_padTo {n : Nat} {a : Bytes} (h : a.length ≤ n) (i : Nat) : (padTo n a).getD i 0 = a.getD i 0 := by
  simp only [padTo, zeros, rep, List.getD_eq_getElem?_getD, List.getElem?_take, List.getElem?_append,
    List.getElem?_replicate]
  by_cases ha : i < a.length
  · rw [if_pos (ha.trans_le h), if_pos ha]
  · rw [if_neg ha, List.getElem?_eq_none (Nat.not_lt.1 ha)]
    split_ifs <;> rfl

section
variable {s : State} {c : Nat} {a : AlgField} {alg : Alg} {m : Mode} {d : Dir} {ivp : Bool}

/-- Past its first two checks `mode.init` is `modeInitWith` (R140). -/
theorem modeInit_of_hasFree (hfree : s.HasFree c) (halg : algOfField a = some alg) :
    modeInit c a m d ivp s = modeInitWith c alg m d ivp s := by
  simp only [modeInit, slotFree_of_hasFree hfree, halg, Bool.not_true, Bool.false_eq_true, if_false]

theorem modeInitWith_of_not_inRange (h : ¬ s.InRange s.op0 s.op1 ∨ ivp = true ∧ ¬ s.InRange s.op2 s.op3) :
    modeInitWith c alg m d ivp s = .raised .bufferRange := by
  unfold modeInitWith
  rcases h with h | ⟨hivp, h⟩
  · simp [validRegion_of_not_inRange h]
  · simp [validRegion_of_not_inRange h, hivp]

/-- `modeInitWith` past its range checks (R140). -/
theorem modeInitWith_of_inRange (hkey : s.InRange s.op0 s.op1) (hiv : ivp = true → s.InRange s.op2 s.op3) :
    modeInitWith c alg m d ivp s =
      if s.op1 ∉ keyLens alg then .raised .invalidKeyLength
      else if m = .ecb ∧ ivp = true then .raised .unsupportedMode
      else if m ≠ .ecb ∧ (ivp = false ∨ s.op3 ≠ blockBytes alg) then .raised .invalidIVLength
      else .done 0 (s.slotsWith c (Slot.openMode alg m d (s.memRead s.op0 s.op1) (s.initialReg alg m))) 0 [] := by
  have hivRegion : (ivp && !s.validRegion s.op2 s.op3) = false := by
    cases ivp with
    | false => rfl
    | true => simp [validRegion_of_inRange (hiv rfl)]
  simp [modeInitWith, validRegion_of_inRange hkey, hivRegion]

end

/-- Settles O27: every check passes, and the opened slot holds the bytes read from DBUF. -/
theorem modeInitCompletes : Obligations.ModeInitCompletes := by
  intro c a alg m d ivp s hfree halg hkey hlen hiv
  have hivRange : ivp = true → s.InRange s.op2 s.op3 := by
    rcases hiv with ⟨-, rfl⟩ | ⟨-, -, -, hr⟩
    · nofun
    · exact fun _ => hr
  have hecb : ¬ (m = .ecb ∧ ivp = true) := by
    rcases hiv with ⟨-, rfl⟩ | ⟨hm, -⟩
    · exact fun h => nomatch h.2
    · exact fun h => hm h.1
  have hivLen : ¬ (m ≠ .ecb ∧ (ivp = false ∨ s.op3 ≠ blockBytes alg)) := by
    rcases hiv with ⟨hm, -⟩ | ⟨-, hivp, hlen3, -⟩
    · exact fun h => h.1 hm
    · exact fun h => by simp [hivp, hlen3] at h
  have hdone : completionOf Config.primitives s (.modeInit c a m d ivp) =
      .done 0 (s.slots.set c (Slot.openMode alg m d (s.memRead s.op0 s.op1) (s.initialReg alg m))) 0 [] := by
    rw [completionOf, modeInit_of_hasFree hfree ((algOfField_eq_some_iff a alg).2 halg),
      modeInitWith_of_inRange hkey hivRange, if_neg (not_not.2 hlen), if_neg hecb, if_neg hivLen, State.slotsWith]
  have hreg : ∀ i, (padTo bmax (s.initialReg alg m)).getD i 0 = (s.initialReg alg m).getD i 0 :=
    getD_padTo (by rw [length_initialReg]; exact blockBytes_le_bmax alg)
  refine ⟨_, exec_of_done_nothing hdone, rfl, length_memRead s _ _, fun i hi => getD_memRead s _ hi, length_padTo _ _,
    fun hm i hi => (hreg i).trans ?_, fun hm => ?_, fun i hi => (hreg i).trans ?_⟩
  · rw [State.initialReg, if_neg hm, getD_memRead s _ hi]
  · rw [Slot.openMode, State.initialReg, if_pos hm, padTo_zeros]; rfl
  · exact List.getD_eq_default _ _ (by rwa [length_initialReg])

/-- Settles O28, in the order of the checks. -/
theorem modeInitErrorsInOrder : Obligations.ModeInitErrorsInOrder := by
  intro c a m d ivp s
  refine ⟨fun hfree => exec_of_raised ?_, fun hfree => ⟨fun hres => exec_of_raised ?_, fun alg halg => ?_⟩⟩
  · simp [completionOf, modeInit, slotFree_of_not_hasFree hfree]
  · have hnone : algOfField a = none := by rcases hres with rfl | rfl <;> rfl
    simp [completionOf, modeInit, slotFree_of_hasFree hfree, hnone]
  · have hinit : completionOf Config.primitives s (.modeInit c a m d ivp) = modeInitWith c alg m d ivp s :=
      modeInit_of_hasFree hfree ((algOfField_eq_some_iff a alg).2 halg)
    refine ⟨fun hrange => exec_of_raised ?_, fun hkey hiv => ?_⟩
    · rw [hinit, modeInitWith_of_not_inRange hrange]
    · rw [modeInitWith_of_inRange hkey hiv] at hinit
      refine ⟨fun hlen => exec_of_raised ?_, fun hlen => ⟨fun hm hivp => exec_of_raised ?_,
        fun hm hivLen => exec_of_raised ?_⟩⟩
      · rw [hinit, if_pos hlen]
      · rw [hinit, if_neg (not_not.2 hlen), if_pos ⟨hm, hivp⟩]
      · rw [hinit, if_neg (not_not.2 hlen), if_neg (fun h => hm h.1), if_pos ⟨hm, hivLen⟩]

/-! `mode.update` and `mode.final` -/

theorem wholeBlock_iff (m : Mode) : wholeBlock m = true ↔ m = .ecb ∨ m = .cbc := by cases m <;> decide

section
variable {s : State} {c : Nat} {code : StatusCode} (P : Primitives)

theorem modeUpdate_of_modeSlot_raised (h : s.contextOf .mode c = .raised code) : modeUpdate P c s = .raised code := by
  simp only [modeUpdate, State.modeSlot, h]

theorem modeFinal_of_modeSlot_raised (h : s.contextOf .mode c = .raised code) : modeFinal P c s = .raised code := by
  simp only [modeFinal, State.modeSlot, h]

theorem modeUpdate_of_inRange (h : s.HasActive .mode c) (hin : s.InRange s.op0 s.op1)
    (hout : s.InRange s.op2 ((s.slot c).fullBlocks s.op1 * (s.slot c).blockLen)) :
    modeUpdate P c s =
      .done ((s.slot c).fullBlocks s.op1 * (s.slot c).blockLen)
        (s.slotsWith c ((s.slot c).absorb P (s.memRead s.op0 s.op1)).1) s.op2
        ((s.slot c).absorb P (s.memRead s.op0 s.op1)).2 := by
  simp [modeUpdate, State.modeSlot, contextOf_of_hasActive h, validRegion_of_inRange hin, validRegion_of_inRange hout]

theorem modeUpdate_of_not_inRange (h : s.HasActive .mode c)
    (hr : ¬ s.InRange s.op0 s.op1 ∨ ¬ s.InRange s.op2 ((s.slot c).fullBlocks s.op1 * (s.slot c).blockLen)) :
    modeUpdate P c s = .raised .bufferRange := by
  simp only [modeUpdate, State.modeSlot, contextOf_of_hasActive h]
  rcases hr with hr | hr <;> simp [validRegion_of_not_inRange hr]

/-- `mode.final` past the check of its slot (R142). -/
theorem modeFinal_of_hasActive (h : s.HasActive .mode c) :
    modeFinal P c s =
      if wholeBlock (s.slot c).mode = true ∧ (s.slot c).nb ≠ 0 then .raised .invalidBlockLength
      else if s.validRegion s.op2 ((s.slot c).finalOutput P).length = false then .raised .bufferRange
      else
        .done ((s.slot c).finalOutput P).length (s.slotsWith c { (s.slot c).secretCleared with st := .finalized })
          s.op2 ((s.slot c).finalOutput P) := by
  simp [modeFinal, State.modeSlot, contextOf_of_hasActive h]

end

/-- A context of whole blocks with none left over passes the check of R142. -/
theorem blocks_complete {sl : Slot} (h : (sl.mode = .ecb ∨ sl.mode = .cbc) → sl.nb = 0) :
    ¬ (wholeBlock sl.mode = true ∧ sl.nb ≠ 0) :=
  fun hbad => hbad.2 (h ((wholeBlock_iff sl.mode).1 hbad.1))

/-- Settles O29: both range checks pass. -/
theorem modeUpdateCompletes : Obligations.ModeUpdateCompletes := by
  intro c s hactive hin hout
  obtain ⟨t, hexec, hend⟩ := exec_of_done (i := .modeUpdate c) (modeUpdate_of_inRange _ hactive hin hout)
  exact ⟨t, s.memRead s.op0 s.op1, hexec, length_memRead s _ _, fun i hi => getD_memRead s _ hi, hend⟩

/-- Settles O30: both checks pass. -/
theorem modeFinalCompletes : Obligations.ModeFinalCompletes := by
  intro c s hactive hblocks hout
  have hdone := modeFinal_of_hasActive Config.primitives hactive
  rw [if_neg (blocks_complete hblocks), validRegion_of_inRange hout, if_neg (by decide)] at hdone
  exact exec_of_done (i := .modeFinal c) hdone

/-- Settles O31, in the order of the checks. -/
theorem modeUpdateFinalErrorsInOrder : Obligations.ModeUpdateFinalErrorsInOrder := by
  intro c s
  refine ⟨fun hbad => ?_, fun hc hk hst => ?_, fun hactive => ⟨fun hr => ?_, fun hm hnb => ?_, fun hblocks hout => ?_⟩⟩
  · have hslot := contextOf_of_badContext hbad
    exact ⟨exec_of_raised (modeUpdate_of_modeSlot_raised _ hslot),
      exec_of_raised (modeFinal_of_modeSlot_raised _ hslot)⟩
  · have hslot := contextOf_of_finalized hc hk hst
    exact ⟨exec_of_raised (modeUpdate_of_modeSlot_raised _ hslot),
      exec_of_raised (modeFinal_of_modeSlot_raised _ hslot)⟩
  · exact exec_of_raised (modeUpdate_of_not_inRange _ hactive hr)
  · refine exec_of_raised (i := .modeFinal c) ((modeFinal_of_hasActive _ hactive).trans ?_)
    rw [if_pos ⟨(wholeBlock_iff _).2 hm, hnb⟩]
  · refine exec_of_raised (i := .modeFinal c) ((modeFinal_of_hasActive _ hactive).trans ?_)
    rw [if_neg (blocks_complete hblocks), if_pos (validRegion_of_not_inRange hout)]

/-! The HMAC commands -/

section
variable {s : State} {c : Nat} {code : StatusCode} (P : Primitives)

theorem hmacUpdate_of_hmacSlot_raised (h : s.contextOf .hmac c = .raised code) : hmacUpdate P c s = .raised code := by
  simp only [hmacUpdate, State.hmacSlot, h]

theorem hmacFinal_of_hmacSlot_raised (h : s.contextOf .hmac c = .raised code) : hmacFinal P c s = .raised code := by
  simp only [hmacFinal, State.hmacSlot, h]

theorem hmacCopy_of_hmacSlot_raised (c2 : Nat) (h : s.contextOf .hmac c = .raised code) :
    hmacCopy c c2 s = .raised code := by
  simp only [hmacCopy, State.hmacSlot, h]

/-- `hmac.init` into a FREE slot (R184). -/
theorem hmacInit_of_hasFree (h : Nat) (hfree : s.HasFree c) :
    hmacInit P c h s =
      if s.hw.nhash ≤ h then .raised .unsupportedMode
      else if s.validRegion s.op0 s.op1 = false then .raised .bufferRange
      else .done 0 (s.slotsWith c (Slot.openHmac P h (s.memRead s.op0 s.op1))) 0 [] := by
  simp [hmacInit, slotFree_of_hasFree hfree]

/-- `hmac.update` of an ACTIVE context (R185). -/
theorem hmacUpdate_of_hasActive (h : s.HasActive .hmac c) :
    hmacUpdate P c s =
      if s.validRegion s.op0 s.op1 = false then .raised .bufferRange
      else .done 0 (s.slotsWith c ((s.slot c).feed P (s.memRead s.op0 s.op1))) 0 [] := by
  simp [hmacUpdate, State.hmacSlot, contextOf_of_hasActive h]

/-- `hmac.final` of an ACTIVE context (R186). -/
theorem hmacFinal_of_hasActive (h : s.HasActive .hmac c) :
    hmacFinal P c s =
      if s.validRegion s.op2 (P.hashDigest (s.slot c).hash) = false then .raised .bufferRange
      else
        .done (P.hashDigest (s.slot c).hash)
          (s.slotsWith c { (s.slot c).secretCleared with st := .finalized }) s.op2 ((s.slot c).digest P) := by
  simp [hmacFinal, State.hmacSlot, contextOf_of_hasActive h]

/-- `hmac.copy` of an ACTIVE context (R187). -/
theorem hmacCopy_of_hasActive (c2 : Nat) (h : s.HasActive .hmac c) :
    hmacCopy c c2 s =
      if c2 = c ∨ s.slotFree c2 = false then .raised .badContext else .done 0 (s.slotsWith c2 (s.slot c)) 0 [] := by
  simp [hmacCopy, State.hmacSlot, contextOf_of_hasActive h]

/-- The hash state that `hmac.update` and `hmac.final` continue from. -/
theorem hashState_of_some {sl : Slot} {hs : HState} (h : sl.hs = some hs) : sl.hashState P = hs := by
  rw [Slot.hashState, h, Option.getD_some]

end

/-- Settles O32: both checks after the slot's pass. -/
theorem hmacInitCompletes : Obligations.HmacInitCompletes := by
  intro c h s hfree hh hin
  have hdone := hmacInit_of_hasFree Config.primitives h hfree
  rw [if_neg (Nat.not_le.2 hh), validRegion_of_inRange hin, if_neg (by decide)] at hdone
  exact ⟨s.memRead s.op0 s.op1, length_memRead s _ _, fun i hi => getD_memRead s _ hi,
    exec_of_done_nothing (i := .hmacInit c h) hdone⟩

/-- Settles O33: the range check passes. -/
theorem hmacUpdateCompletes : Obligations.HmacUpdateCompletes := by
  intro c s hs hactive hstate hin
  have hdone := hmacUpdate_of_hasActive Config.primitives hactive
  rw [validRegion_of_inRange hin, if_neg (by decide), Slot.feed, hashState_of_some _ hstate] at hdone
  exact ⟨s.memRead s.op0 s.op1, length_memRead s _ _, fun i hi => getD_memRead s _ hi,
    exec_of_done_nothing (i := .hmacUpdate c) hdone⟩

/-- Settles O34: the range check passes. -/
theorem hmacFinalCompletes : Obligations.HmacFinalCompletes := by
  intro c s hs hactive hstate hout
  have hdone := hmacFinal_of_hasActive Config.primitives hactive
  rw [validRegion_of_inRange hout, if_neg (by decide), Slot.digest, hashState_of_some _ hstate] at hdone
  exact exec_of_done (i := .hmacFinal c) hdone

/-- Settles O35: the destination is another slot and FREE. -/
theorem hmacCopyCompletes : Obligations.HmacCopyCompletes := by
  intro c c2 s hactive hfree hne
  have hdone := hmacCopy_of_hasActive c2 hactive
  rw [slotFree_of_hasFree hfree, if_neg (by simp [hne])] at hdone
  exact exec_of_done_nothing (i := .hmacCopy c c2) hdone

/-- Settles O36, in the order of the checks. -/
theorem hmacErrorsInOrder : Obligations.HmacErrorsInOrder := by
  intro c c2 h s
  refine ⟨fun hfree => exec_of_raised ?_, fun hfree hh => ?_, fun hfree hh hin => ?_, fun hbad => ?_,
    fun hc hk hst => ?_, fun hactive => ⟨fun hin => ?_, fun hout => ?_, fun hdst => ?_⟩⟩
  · simp [completionOf, hmacInit, slotFree_of_not_hasFree hfree]
  · refine exec_of_raised (i := .hmacInit c h) ((hmacInit_of_hasFree _ h hfree).trans ?_)
    rw [if_pos hh]
  · refine exec_of_raised (i := .hmacInit c h) ((hmacInit_of_hasFree _ h hfree).trans ?_)
    rw [if_neg (Nat.not_le.2 hh), if_pos (validRegion_of_not_inRange hin)]
  · have hslot := contextOf_of_badContext hbad
    exact ⟨exec_of_raised (hmacUpdate_of_hmacSlot_raised _ hslot),
      exec_of_raised (hmacFinal_of_hmacSlot_raised _ hslot),
      exec_of_raised (hmacCopy_of_hmacSlot_raised c2 hslot)⟩
  · have hslot := contextOf_of_finalized hc hk hst
    exact ⟨exec_of_raised (hmacUpdate_of_hmacSlot_raised _ hslot),
      exec_of_raised (hmacFinal_of_hmacSlot_raised _ hslot),
      exec_of_raised (hmacCopy_of_hmacSlot_raised c2 hslot)⟩
  · refine exec_of_raised (i := .hmacUpdate c) ((hmacUpdate_of_hasActive _ hactive).trans ?_)
    rw [if_pos (validRegion_of_not_inRange hin)]
  · refine exec_of_raised (i := .hmacFinal c) ((hmacFinal_of_hasActive _ hactive).trans ?_)
    rw [if_pos (validRegion_of_not_inRange hout)]
  · refine exec_of_raised (i := .hmacCopy c c2) ((hmacCopy_of_hasActive c2 hactive).trans ?_)
    rw [if_pos (hdst.imp_right slotFree_of_not_hasFree)]

end Sys2Proof.Machine
end

section
/-! PROOFS. Rules over all commands: codes, frame, output, and the slots a command reads and writes (10_state.md rules
R37, R43, R44, 60_exceptions.md rule R221, 41_hmac_engine.md rule R190). -/

namespace Sys2Proof.Machine

/-! Status codes -/

section
variable {P : Primitives} {s : State} {c c2 h : Nat} {code : StatusCode}

theorem contextOf_raised {k : Kind} (hr : s.contextOf k c = .raised code) :
    code = .badContext ∨ code = .contextFinalized := by
  rcases contextOf_cases s k c with ⟨h', -⟩ | ⟨h', -⟩ | ⟨h', -⟩
  · rw [h'] at hr; cases hr; exact .inl rfl
  · rw [h'] at hr; cases hr; exact .inr rfl
  · rw [h'] at hr; cases hr

theorem modeInit_raised {a : AlgField} {m : Mode} {d : Dir} {v : Bool} (hr : modeInit c a m d v s = .raised code) :
    code ∈ possibleCodes (.modeInit c a m d v) := by
  unfold modeInit modeInitWith at hr
  repeat' split at hr
  all_goals cases hr
  all_goals simp [possibleCodes]

theorem modeUpdate_raised (hr : modeUpdate P c s = .raised code) : code ∈ possibleCodes (.modeUpdate c) := by
  unfold modeUpdate at hr
  split at hr
  · next hs => cases hr; rcases contextOf_raised hs with rfl | rfl <;> simp [possibleCodes]
  · repeat' split at hr
    all_goals cases hr
    all_goals simp [possibleCodes]

theorem modeFinal_raised (hr : modeFinal P c s = .raised code) : code ∈ possibleCodes (.modeFinal c) := by
  unfold modeFinal at hr
  split at hr
  · next hs => cases hr; rcases contextOf_raised hs with rfl | rfl <;> simp [possibleCodes]
  · repeat' split at hr
    all_goals cases hr
    all_goals simp [possibleCodes]

theorem hmacInit_raised (hr : hmacInit P c h s = .raised code) : code ∈ possibleCodes (.hmacInit c h) := by
  unfold hmacInit at hr
  repeat' split at hr
  all_goals cases hr
  all_goals simp [possibleCodes]

theorem hmacUpdate_raised (hr : hmacUpdate P c s = .raised code) : code ∈ possibleCodes (.hmacUpdate c) := by
  unfold hmacUpdate at hr
  split at hr
  · next hs => cases hr; rcases contextOf_raised hs with rfl | rfl <;> simp [possibleCodes]
  · split at hr <;> cases hr
    simp [possibleCodes]

theorem hmacFinal_raised (hr : hmacFinal P c s = .raised code) : code ∈ possibleCodes (.hmacFinal c) := by
  unfold hmacFinal at hr
  split at hr
  · next hs => cases hr; rcases contextOf_raised hs with rfl | rfl <;> simp [possibleCodes]
  · split at hr <;> cases hr
    simp [possibleCodes]

theorem hmacCopy_raised (hr : hmacCopy c c2 s = .raised code) : code ∈ possibleCodes (.hmacCopy c c2) := by
  unfold hmacCopy at hr
  split at hr
  · next hs => cases hr; rcases contextOf_raised hs with rfl | rfl <;> simp [possibleCodes]
  · split at hr <;> cases hr
    simp [possibleCodes]

theorem ctxRelease_raised (hr : ctxRelease c s = .raised code) : code ∈ possibleCodes (.ctxRelease c) := by
  unfold ctxRelease at hr
  split at hr <;> cases hr
  simp [possibleCodes]

/-- A command raises only codes of its row (R221). -/
theorem completionOf_raised {i : Instr} (hr : completionOf P s i = .raised code) : code ∈ possibleCodes i := by
  cases i with
  | nop => cases hr
  | modeInit c a m d v => exact modeInit_raised hr
  | modeUpdate c => exact modeUpdate_raised hr
  | modeFinal c => exact modeFinal_raised hr
  | hmacInit c h => exact hmacInit_raised hr
  | hmacUpdate c => exact hmacUpdate_raised hr
  | hmacFinal c => exact hmacFinal_raised hr
  | hmacCopy c c2 => exact hmacCopy_raised hr
  | ctxRelease c => exact ctxRelease_raised hr

end

/-- Every command can end with OK. -/
theorem ok_mem_possibleCodes (i : Instr) : .ok ∈ possibleCodes i := by cases i <;> simp [possibleCodes]

theorem finish_err_mem (P : Primitives) (s : State) (i : Instr) :
    (s.finish (completionOf P s i)).status.err ∈ possibleCodes i := by
  cases hc : completionOf P s i with
  | raised code => exact completionOf_raised hc
  | done n slots off out => exact ok_mem_possibleCodes i

/-- Settles O38: a legal word ends with a code of its row, an illegal one with `BadCommand`. -/
theorem codesPerCommand : Obligations.CodesPerCommand := by
  intro s t hp hturn
  refine ⟨fun i hi => ?_, fun e he => ?_⟩
  · rw [engineTurn_of_instr hp hi, exec_next_iff] at hturn
    exact hturn ▸ finish_err_mem Config.primitives s i
  · rw [engineTurn_of_reject hp he, Host.Outcome.next.injEq] at hturn
    exact hturn ▸ rfl

/-- Settles O39: a command ends by `State.finish`. -/
theorem commandsKeepFrame : Obligations.CommandsKeepFrame := by
  intro i s t hexec
  obtain rfl := exec_next_iff.1 hexec
  exact ⟨finish_frame s _, finish_busy s _, finish_doneFlag s _, finish_phase s _⟩

/-! Output -/

/-- The commands that can write DBUF (R81). -/
theorem completionOf_without_output {P : Primitives} {s : State} {i : Instr} {n off : Nat} {slots : List Slot}
    {out : Bytes} (hi : ∀ c, i ≠ .modeUpdate c ∧ i ≠ .modeFinal c ∧ i ≠ .hmacFinal c)
    (hd : completionOf P s i = .done n slots off out) : n = 0 ∧ out = [] := by
  cases i with
  | nop => obtain ⟨hn, hout, -⟩ := nop_done hd; exact ⟨hn, hout⟩
  | modeInit c a m d v => obtain ⟨hn, hout, -⟩ := modeInit_done hd; exact ⟨hn, hout⟩
  | modeUpdate c => exact absurd rfl (hi c).1
  | modeFinal c => exact absurd rfl (hi c).2.1
  | hmacInit c h => obtain ⟨hn, hout, -⟩ := hmacInit_done hd; exact ⟨hn, hout⟩
  | hmacUpdate c => obtain ⟨hn, hout, -⟩ := hmacUpdate_done hd; exact ⟨hn, hout⟩
  | hmacFinal c => exact absurd rfl (hi c).2.2
  | hmacCopy c c2 => obtain ⟨hn, hout, -⟩ := hmacCopy_done hd; exact ⟨hn, hout⟩
  | ctxRelease c => obtain ⟨hn, hout, -⟩ := ctxRelease_done hd; exact ⟨hn, hout⟩

/-- Settles O41: an error writes nothing either. -/
theorem commandsWithoutOutputKeepDbuf : Obligations.CommandsWithoutOutputKeepDbuf := by
  intro i s t hi hexec
  obtain rfl := exec_next_iff.1 hexec
  cases hc : completionOf Config.primitives s i with
  | raised code => exact ⟨rfl, rfl⟩
  | done n slots off out =>
    obtain ⟨rfl, rfl⟩ := completionOf_without_output hi hc
    exact ⟨rfl, rfl⟩

/-! The slot a command writes -/

section
variable {P : Primitives} {s : State} {i : Instr}

/-- A command leaves every slot but its written one, and the file's length (R43). -/
theorem finish_slot_of_ne {k : Nat} (hk : some k ≠ writtenSlot i) :
    (s.finish (completionOf P s i)).slot k = s.slot k ∧
      (s.finish (completionOf P s i)).slots.length = s.slots.length := by
  cases hc : completionOf P s i with
  | raised code => exact ⟨rfl, rfl⟩
  | done n slots off out =>
    rcases (completionOf_done hc).1 with rfl | ⟨c, sl, hw, -, rfl⟩
    · exact ⟨rfl, rfl⟩
    · have hne : c ≠ k := fun h => hk (h ▸ hw.symm)
      refine ⟨?_, List.length_set ..⟩
      simp [State.slot, State.slotsWith, List.getElem?_set_ne hne]

/-- Only a release writes a FINALIZED slot (R44). -/
theorem written_not_finalized {k n off : Nat} {slots : List Slot} {out : Bytes}
    (hd : completionOf P s i = .done n slots off out) (hw : writtenSlot i = some k) :
    (s.slot k).st ≠ .finalized ∨ i = .ctxRelease k := by
  cases i with
  | nop => cases hw
  | modeInit c a m d v =>
    cases hw
    obtain ⟨-, -, -, hst, -⟩ := modeInit_done hd
    exact .inl (by simp [hst])
  | modeUpdate c => cases hw; obtain ⟨-, -, hst, -⟩ := modeUpdate_done hd; exact .inl hst
  | modeFinal c => cases hw; obtain ⟨-, -, hst, -⟩ := modeFinal_done hd; exact .inl hst
  | hmacInit c h =>
    cases hw
    obtain ⟨-, -, -, hst, -⟩ := hmacInit_done hd
    exact .inl (by simp [hst])
  | hmacUpdate c => cases hw; obtain ⟨-, -, -, -, hst, -⟩ := hmacUpdate_done hd; exact .inl hst
  | hmacFinal c => cases hw; obtain ⟨-, -, hst, -⟩ := hmacFinal_done hd; exact .inl hst
  | hmacCopy c c2 =>
    cases hw
    obtain ⟨-, -, -, -, -, -, -, hst, -⟩ := hmacCopy_done hd
    exact .inl (by simp [hst])
  | ctxRelease c => cases hw; exact .inr rfl

end

/-- Settles O42, from what a completion does to the slot file. -/
theorem commandsWriteOnlyTheirSlot : Obligations.CommandsWriteOnlyTheirSlot := by
  intro i s t k hexec hk
  obtain rfl := exec_next_iff.1 hexec
  exact finish_slot_of_ne hk

/-- Settles O45: a command that writes the slot finds it not FINALIZED, unless it is the release. -/
theorem finalizedSlotStaysUntilRelease : Obligations.FinalizedSlotStaysUntilRelease := by
  intro i s t k hst hi hexec
  by_cases hk : some k = writtenSlot i
  · obtain rfl := exec_next_iff.1 hexec
    cases hc : completionOf Config.primitives s i with
    | raised code => rfl
    | done n slots off out =>
      rcases written_not_finalized hc hk.symm with h | h
      · exact absurd hst h
      · exact absurd h hi
  · exact (commandsWriteOnlyTheirSlot i s t k hexec hk).1

/-! The lifecycle -/

/-- The lifecycle transitions of R44 that the command `i` can make at slot `k`. -/
def LifecycleStep (i : Instr) (k : Nat) (before after : Lifecycle) : Prop :=
  after = before ∨
  (before = .free ∧ after = .active ∧
    ((∃ a m d v, i = .modeInit k a m d v) ∨ (∃ h, i = .hmacInit k h) ∨ ∃ c, i = .hmacCopy c k)) ∨
  (before = .active ∧ after = .finalized ∧ (i = .modeFinal k ∨ i = .hmacFinal k)) ∨
  (after = .free ∧ i = .ctxRelease k)

section
variable {P : Primitives} {s : State} {i : Instr} {k n off : Nat} {slots : List Slot} {out : Bytes}

/-- Reading the slot that a command has written. -/
theorem getD_slotsWith_same (hs : s.Inv P) (hk : k < s.hw.nctx) (sl : Slot) :
    (s.slotsWith k sl).getD k Slot.cleared = sl := by
  rw [slot_set s k k sl _ rfl (hs.slotCount.symm ▸ hk), if_pos rfl]

/-- A context that a command may use and that is not FINALIZED is ACTIVE in a good state. -/
theorem slot_active (hs : s.Inv P) (hk : k < s.hw.nctx) {kind : Kind} (hkind : (s.slot k).kind = kind)
    (hne : kind ≠ .none) (hst : (s.slot k).st ≠ .finalized) : (s.slot k).st = .active :=
  active_of_not_finalized (slot_good hs hk) (hkind ▸ hne) hst

/-- What a command does to the lifecycle of the slot it writes (R44). -/
theorem completionOf_lifecycle (hs : s.Inv P) (hd : completionOf P s i = .done n slots off out)
    (hw : writtenSlot i = some k) : LifecycleStep i k (s.slot k).st (slots.getD k Slot.cleared).st := by
  cases i with
  | nop => cases hw
  | modeInit c a m d v =>
    cases hw
    obtain ⟨-, -, hk, hst, -, -, -, rfl⟩ := modeInit_done hd
    rw [getD_slotsWith_same hs hk]
    exact .inr (.inl ⟨hst, rfl, .inl ⟨a, m, d, v, rfl⟩⟩)
  | modeUpdate c =>
    cases hw
    obtain ⟨hk, -, -, -, -, -, rfl, -⟩ := modeUpdate_done hd
    rw [getD_slotsWith_same hs hk]
    exact .inl rfl
  | modeFinal c =>
    cases hw
    obtain ⟨hk, hkind, hst, -, -, -, rfl, -⟩ := modeFinal_done hd
    rw [getD_slotsWith_same hs hk]
    exact .inr (.inr (.inl ⟨slot_active hs hk hkind (by decide) hst, rfl, .inl rfl⟩))
  | hmacInit c h =>
    cases hw
    obtain ⟨-, -, hk, hst, -, rfl⟩ := hmacInit_done hd
    rw [getD_slotsWith_same hs hk]
    exact .inr (.inl ⟨hst, rfl, .inr (.inl ⟨h, rfl⟩)⟩)
  | hmacUpdate c =>
    cases hw
    obtain ⟨-, -, hk, -, -, rfl⟩ := hmacUpdate_done hd
    rw [getD_slotsWith_same hs hk]
    exact .inl rfl
  | hmacFinal c =>
    cases hw
    obtain ⟨hk, hkind, hst, -, -, -, rfl, -⟩ := hmacFinal_done hd
    rw [getD_slotsWith_same hs hk]
    exact .inr (.inr (.inl ⟨slot_active hs hk hkind (by decide) hst, rfl, .inr rfl⟩))
  | hmacCopy c c2 =>
    cases hw
    obtain ⟨-, -, hc, hkind, hsrc, -, hk, hst, rfl⟩ := hmacCopy_done hd
    rw [getD_slotsWith_same hs hk]
    exact .inr (.inl ⟨hst, slot_active hs hc hkind (by decide) hsrc, .inr (.inr ⟨c, rfl⟩)⟩)
  | ctxRelease c =>
    cases hw
    obtain ⟨-, -, hk, rfl⟩ := ctxRelease_done hd
    rw [getD_slotsWith_same hs hk]
    exact .inr (.inr (.inr ⟨rfl, rfl⟩))

end

/-- Settles O44: at the written slot by command, at any other by the frame. -/
theorem lifecycleTransitions : Obligations.LifecycleTransitions := by
  intro i s t k hs _ hexec
  by_cases hk : some k = writtenSlot i
  · obtain rfl := exec_next_iff.1 hexec
    cases hc : completionOf Config.primitives s i with
    | raised code => exact .inl rfl
    | done n slots off out => exact completionOf_lifecycle hs hc hk.symm
  · exact .inl (congrArg Slot.st (commandsWriteOnlyTheirSlot i s t k hexec hk).1)

/-! The slots a command reads -/

/-- Two endings that a command gives on slot files that agree on the slots `ks`: the same but for other slots. -/
inductive Completion.Agree (ks : List Nat) : Completion → Completion → Prop
  | raised (code : StatusCode) : Agree ks (.raised code) (.raised code)
  | done (n : Nat) {slots slots' : List Slot} (off : Nat) (out : Bytes)
      (h : ∀ k ∈ ks, slots'.getD k Slot.cleared = slots.getD k Slot.cleared) :
      Agree ks (.done n slots off out) (.done n slots' off out)

section
variable (s : State) (slots : List Slot)

theorem hasSlot_withSlots (c : Nat) : State.hasSlot { s with slots := slots } c = s.hasSlot c := rfl

variable {s slots} {c : Nat} (hslot : State.slot { s with slots := slots } c = s.slot c)

include hslot

theorem slotFree_withSlots : State.slotFree { s with slots := slots } c = s.slotFree c := by
  simp only [State.slotFree, hslot, hasSlot_withSlots]

theorem contextOf_withSlots (k : Kind) : State.contextOf { s with slots := slots } k c = s.contextOf k c := by
  simp only [State.contextOf, hslot, hasSlot_withSlots]

end

/-- Endings chosen by the same check agree if those on either side of it do. -/
theorem agree_ite {ks : List Nat} {p p' : Prop} [Decidable p] [Decidable p'] {c1 c2 c1' c2' : Completion}
    (hp : p' ↔ p) (h1 : c1.Agree ks c1') (h2 : c2.Agree ks c2') :
    Completion.Agree ks (if p then c1 else c2) (if p' then c1' else c2') := by
  by_cases h : p
  · rwa [if_pos h, if_pos (hp.2 h)]
  · rwa [if_neg h, if_neg (mt hp.1 h)]

section
variable {P : Primitives} {s : State} {slots : List Slot} {ks : List Nat}
  (hlen : slots.length = s.slots.length)
  (hks : ∀ k ∈ ks, State.slot { s with slots := slots } k = s.slot k)

include hlen hks

/-- Writing the same slot to both files keeps their agreement. -/
theorem slotsWith_agree (c : Nat) (sl : Slot) : ∀ k ∈ ks,
    (State.slotsWith { s with slots := slots } c sl).getD k Slot.cleared =
      (s.slotsWith c sl).getD k Slot.cleared := by
  intro k hk
  have hold : slots.getD k Slot.cleared = s.slots.getD k Slot.cleared := hks k hk
  by_cases hck : c = k
  · subst hck
    by_cases hc : c < s.slots.length
    · simp [State.slotsWith, hc, hlen]
    · simpa only [State.slotsWith, List.set_eq_of_length_le (Nat.not_lt.1 hc),
        List.set_eq_of_length_le (hlen.trans_le (Nat.not_lt.1 hc))] using hold
  · simpa [State.slotsWith, List.getElem?_set_ne hck] using hold

/-- A command reads no slot but those among `ks` that its word names (R43). -/
theorem completionOf_agree {i : Instr} (hi : ∀ k ∈ namedSlots i, k ∈ ks) :
    Completion.Agree ks (completionOf P s i) (completionOf P { s with slots := slots } i) := by
  have hdone : ∀ n off out c sl, Completion.Agree ks (.done n (s.slotsWith c sl) off out)
      (.done n (State.slotsWith { s with slots := slots } c sl) off out) :=
    fun n off out c sl => .done n off out (slotsWith_agree hlen hks c sl)
  have hslot : ∀ c ∈ namedSlots i, State.slot { s with slots := slots } c = s.slot c := fun c hc => hks c (hi c hc)
  cases i with
  | nop => exact .done 0 0 [] hks
  | modeInit c a m d v =>
    have hfree := slotFree_withSlots (hslot c List.mem_cons_self)
    simp only [completionOf, modeInit, hfree]
    refine agree_ite .rfl (.raised _) ?_
    cases algOfField a with
    | none => exact .raised _
    | some alg =>
      exact agree_ite .rfl (.raised _) <| agree_ite .rfl (.raised _) <| agree_ite .rfl (.raised _) <|
        agree_ite .rfl (.raised _) <| agree_ite .rfl (.raised _) (hdone ..)
  | modeUpdate c =>
    have hctx := contextOf_withSlots (hslot c List.mem_cons_self) .mode
    simp only [completionOf, modeUpdate, State.modeSlot, hctx]
    cases s.contextOf .mode c with
    | raised code => exact .raised code
    | slot sl => exact agree_ite .rfl (.raised _) <| agree_ite .rfl (.raised _) (hdone ..)
  | modeFinal c =>
    have hctx := contextOf_withSlots (hslot c List.mem_cons_self) .mode
    simp only [completionOf, modeFinal, State.modeSlot, hctx]
    cases s.contextOf .mode c with
    | raised code => exact .raised code
    | slot sl => exact agree_ite .rfl (.raised _) <| agree_ite .rfl (.raised _) (hdone ..)
  | hmacInit c h =>
    have hfree := slotFree_withSlots (hslot c List.mem_cons_self)
    simp only [completionOf, hmacInit, hfree]
    exact agree_ite .rfl (.raised _) <| agree_ite .rfl (.raised _) <| agree_ite .rfl (.raised _) (hdone ..)
  | hmacUpdate c =>
    have hctx := contextOf_withSlots (hslot c List.mem_cons_self) .hmac
    simp only [completionOf, hmacUpdate, State.hmacSlot, hctx]
    cases s.contextOf .hmac c with
    | raised code => exact .raised code
    | slot sl => exact agree_ite .rfl (.raised _) (hdone ..)
  | hmacFinal c =>
    have hctx := contextOf_withSlots (hslot c List.mem_cons_self) .hmac
    simp only [completionOf, hmacFinal, State.hmacSlot, hctx]
    cases s.contextOf .hmac c with
    | raised code => exact .raised code
    | slot sl => exact agree_ite .rfl (.raised _) (hdone ..)
  | hmacCopy c c2 =>
    have hctx := contextOf_withSlots (hslot c List.mem_cons_self) .hmac
    have hfree := slotFree_withSlots (hslot c2 (List.mem_cons_of_mem _ List.mem_cons_self))
    simp only [completionOf, hmacCopy, State.hmacSlot, hctx, hfree]
    cases s.contextOf .hmac c with
    | raised code => exact .raised code
    | slot sl => exact agree_ite .rfl (.raised _) (hdone ..)
  | ctxRelease c => exact agree_ite .rfl (.raised _) (hdone ..)

end

/-- Settles O43: the two endings agree on the named slots. -/
theorem commandsReadOnlyNamedSlots : Obligations.CommandsReadOnlyNamedSlots := by
  intro i s t t' slots hlen hslots hexec hexec'
  obtain rfl := exec_next_iff.1 hexec
  obtain rfl := exec_next_iff.1 hexec'
  have hagree := completionOf_agree (P := Config.primitives) hlen hslots (i := i) fun _ hk => hk
  generalize completionOf Config.primitives s i = done at hagree
  generalize completionOf Config.primitives { s with slots := slots } i = done' at hagree
  cases hagree with
  | raised code => exact ⟨rfl, rfl, rfl, hslots⟩
  | done n off out h => exact ⟨rfl, rfl, rfl, h⟩

/-! A copy and its original -/

/-- An update of an ACTIVE HMAC context feeds its slot and nothing else (R185). -/
theorem exec_hmacUpdate_slot {c : Nat} {s t : State} (hc : c < s.slots.length) (hactive : s.HasActive .hmac c)
    (hin : s.InRange s.op0 s.op1) (hexec : exec (.hmacUpdate c) s = .next t) :
    (∀ k, t.slot k =
      if c = k then (s.slot c).feed Config.primitives (s.memRead s.op0 s.op1) else s.slot k) ∧
      t.slots.length = s.slots.length ∧ t.hw = s.hw := by
  have hdone := hmacUpdate_of_hasActive Config.primitives hactive
  rw [validRegion_of_inRange hin, if_neg (by decide)] at hdone
  rw [exec_of_done_nothing (i := .hmacUpdate c) hdone, Host.Outcome.next.injEq] at hexec
  subst hexec
  exact ⟨fun k => slot_set s c k _ _ rfl hc, List.length_set .., rfl⟩

/-- Equal slot files hold equal slots. -/
theorem slot_congr {s t : State} (h : t.slots = s.slots) (k : Nat) : t.slot k = s.slot k := by
  rw [State.slot, State.slot, h]

/-- Settles O58: the copy gives both slots the same content, and an update of either leaves the other alone. -/
theorem copyIndependence : Obligations.CopyIndependence := by
  intro c c2 s s1 s2 t1 t2 hs hactive hfree hne hcopy hs2 hw2 hin2 hup1 s3 hs3 hw3 hin3 hup2
  rw [hmacCopyCompletes c c2 s hactive hfree hne, Host.Outcome.next.injEq] at hcopy
  subst hcopy
  have hc2 : c2 < s.slots.length := hs.slotCount.symm ▸ hfree.1
  have hslot2 : ∀ k, s2.slot k = if c2 = k then s.slot c else s.slot k := fun k => slot_set s c2 k _ s2.slots hs2 hc2
  have hlen2 : s2.slots.length = s.slots.length := hs2 ▸ List.length_set ..
  have horig : s2.slot c = s.slot c := by rw [hslot2, if_neg hne]
  have hactive2 : s2.HasActive .hmac c := by
    rw [State.HasActive, horig, hw2]
    exact hactive
  have hc : c < s2.slots.length := by
    rw [hlen2, hs.slotCount]
    exact hactive.1
  obtain ⟨hslot3, hlen3, hwt1⟩ := exec_hmacUpdate_slot hc hactive2 hin2 hup1
  have hcopied : s3.slot c2 = s.slot c := by rw [slot_congr hs3, hslot3, if_neg hne.symm, hslot2, if_pos rfl]
  have hactive3 : s3.HasActive .hmac c2 := by
    rw [State.HasActive, hcopied, hw3, hwt1, hw2]
    exact ⟨hfree.1, hactive.2⟩
  have hc3 : c2 < s3.slots.length := by rwa [hs3, hlen3, hlen2]
  obtain ⟨hslotT, -, -⟩ := exec_hmacUpdate_slot hc3 hactive3 hin3 hup2
  constructor
  · rw [hslotT, if_neg hne, slot_congr hs3, hslot3, if_pos rfl, horig]
  · rw [hslotT, if_pos rfl, hcopied]

end Sys2Proof.Machine
end

section
/-! PROOFS. The block loop block by block, and what a mode context makes of its whole message (40_mode_engine.md section
4, rules R139, R141, R143 to R146). -/

namespace Sys2Proof.Machine

/-! The block loop -/

section
variable (step : Bytes → Bytes → Bytes × Bytes) (B : Nat)

/-- The register after one more block. -/
theorem runBlocks_reg_succ (i : Nat) (R stream : Bytes) :
    (runBlocks step B (i + 1) R stream).2.1 =
      (step (runBlocks step B i R stream).2.1 ((stream.drop (i * B)).take B)).2 := by
  rw [runBlocks_add, ← runBlocks_rest step B i R stream]
  rfl

/-- Block `i` of the output is what the step makes of block `i` of the stream and the register before it. -/
theorem runBlocks_out_block
    (hs : ∀ R x, R.length = B → x.length = B → (step R x).1.length = B ∧ (step R x).2.length = B)
    {i n : Nat} (hi : i < n) {R stream : Bytes} (hR : R.length = B) (h : n * B ≤ stream.length) :
    (((runBlocks step B n R stream).1.drop (i * B)).take B) =
      (step (runBlocks step B i R stream).2.1 ((stream.drop (i * B)).take B)).1 := by
  obtain ⟨m, rfl⟩ : ∃ m, n = i + (m + 1) := ⟨n - i - 1, by omega⟩
  have hB : i * B + B ≤ (i + (m + 1)) * B := by
    rw [← Nat.succ_mul]
    exact Nat.mul_le_mul_right B (by omega)
  obtain ⟨hout, hreg⟩ := runBlocks_length step B hs i R stream hR (by omega)
  have hblock : ((stream.drop (i * B)).take B).length = B := by
    rw [List.length_take, List.length_drop]
    omega
  rw [runBlocks_add, List.drop_left' hout, runBlocks_succ, runBlocks_rest, List.take_left' (hs _ _ hreg hblock).1]

/-- Where one step undoes another from the same register, leaving the same register, so does its loop. -/
theorem runBlocks_inverts (undo : Bytes → Bytes → Bytes × Bytes)
    (hs : ∀ R x, R.length = B → x.length = B → (step R x).1.length = B ∧ (step R x).2.length = B)
    (hundo : ∀ R x, R.length = B → x.length = B → undo R (step R x).1 = (x, (step R x).2))
    (n : Nat) (R stream more : Bytes) (hR : R.length = B) (h : n * B ≤ stream.length) :
    runBlocks undo B n R ((runBlocks step B n R stream).1 ++ more) =
      (stream.take (n * B), (runBlocks step B n R stream).2.1, more) := by
  induction n generalizing R stream with
  | zero => simp
  | succ n ih =>
    rw [Nat.succ_mul] at h ⊢
    have hx : (stream.take B).length = B := by rw [List.length_take]; omega
    have hn : n * B ≤ (stream.drop B).length := by rw [List.length_drop]; omega
    obtain ⟨hy, hR'⟩ := hs R _ hR hx
    rw [runBlocks_succ, runBlocks_succ, List.append_assoc, List.take_left' hy, List.drop_left' hy, hundo R _ hR hx,
      ih _ _ hR' hn, Nat.add_comm, List.take_add]

end

/-! One input -/

theorem Slot.blockLen_pos (sl : Slot) : 0 < sl.blockLen := blockBytes_pos sl.alg

/-- What feeding a mode context needs of its slot: registers in their widths and less than a block buffered. -/
structure Slot.Ready (sl : Slot) : Prop where
  rWidth : sl.r.length = bmax
  partialBlock : sl.nb < sl.blockLen
  regPadded : padTo bmax sl.reg = sl.r

theorem ready_of_good {P : Primitives} {hw : HwConfig} {sl : Slot} (h : sl.Good P hw) (hk : sl.kind = .mode) :
    sl.Ready :=
  ⟨h.rWidth, h.modeBuffer hk, h.modeReg hk⟩

theorem openMode_ready {alg : Alg} (m : Mode) (d : Dir) (key : Bytes) {iv : Bytes} (h : iv.length = blockBytes alg) :
    (Slot.openMode alg m d key iv).Ready :=
  ⟨length_padTo _ _, blockBytes_pos alg, padTo_take_padTo h (blockBytes_le_bmax alg)⟩

section
variable (P : Primitives) (sl : Slot)

/-- `mode.update` from what its block loop gives (R141). -/
theorem absorb_of_run {data out R rest : Bytes}
    (h : runBlocks (sl.step P) sl.blockLen (sl.fullBlocks data.length) sl.reg (sl.bbuf ++ data) = (out, R, rest)) :
    sl.absorb P data = ({ sl.withReg R with bbuf := rest }, out) := by
  rw [Slot.absorb, h]

theorem fullBlocks_eq (data : Bytes) : sl.fullBlocks data.length = (sl.bbuf ++ data).length / sl.blockLen := by
  rw [Slot.fullBlocks, Slot.nb, List.length_append]

theorem absorb_bbuf (data : Bytes) :
    (sl.absorb P data).1.bbuf = (sl.bbuf ++ data).drop (sl.fullBlocks data.length * sl.blockLen) := by
  rw [absorb_slot]

/-- The rest of the stream stays in the buffer (R141). -/
theorem absorb_nb (data : Bytes) : (sl.absorb P data).1.nb = (sl.nb + data.length) % sl.blockLen := by
  rw [Slot.nb, absorb_bbuf, List.length_drop, List.length_append, Nat.mod_eq_sub_div_mul]
  rfl

variable {sl}

theorem length_absorb_reg (h : sl.r.length = bmax) (data : Bytes) :
    (runBlocks (sl.step P) sl.blockLen (sl.fullBlocks data.length) sl.reg (sl.bbuf ++ data)).2.1.length = sl.blockLen :=
  (runBlocks_length _ _ (slotStep_length P sl) _ _ _ (length_reg h) (fullBlocks_le sl data)).2

theorem absorb_reg (h : sl.r.length = bmax) (data : Bytes) :
    (sl.absorb P data).1.reg =
      (runBlocks (sl.step P) sl.blockLen (sl.fullBlocks data.length) sl.reg (sl.bbuf ++ data)).2.1 :=
  take_padTo (length_absorb_reg P h data) (blockBytes_le_bmax sl.alg)

theorem absorb_ready (h : sl.r.length = bmax) (data : Bytes) : (sl.absorb P data).1.Ready where
  rWidth := length_padTo _ _
  partialBlock := by
    rw [absorb_nb]
    exact Nat.mod_lt _ sl.blockLen_pos
  regPadded := padTo_take_padTo (length_absorb_reg P h data) (blockBytes_le_bmax sl.alg)

end

/-- Settles O51: the register before block `i` is that after the loop's first `i` blocks. -/
theorem updateRunsBlockSteps : Obligations.UpdateRunsBlockSteps := by
  intro P hw sl data hgood hkind stream B n t out
  have hn : sl.fullBlocks data.length = n := fullBlocks_eq sl data
  have hfits : n * B ≤ stream.length := Nat.div_mul_le_self _ _
  have hstep := slotStep_length P sl
  have hR := length_reg hgood.rWidth
  refine ⟨fun i => (runBlocks (sl.step P) B i sl.reg stream).2.1, rfl, fun i hi => ?_, ?_, ?_, ?_, ?_, ?_⟩
  · have hout := runBlocks_out_block (sl.step P) B hstep hi hR hfits
    have hreg := runBlocks_reg_succ (sl.step P) B i sl.reg stream
    show (((sl.absorb P data).2.drop (i * B)).take B, _) = sl.step P _ _
    rw [absorb_out, hn]
    exact Prod.ext hout hreg
  · exact hn ▸ absorb_out_length P sl data hgood.rWidth
  · exact hn ▸ absorb_reg P hgood.rWidth data
  · exact hn ▸ absorb_bbuf P sl data
  · exact (absorb_ready P hgood.rWidth data).partialBlock
  · rfl

/-! The final output -/

/-- The modes of whole blocks and the stream modes (R142). -/
theorem mode_cases (m : Mode) : (m = .ecb ∨ m = .cbc) ∨ (m = .cfb ∨ m = .ofb) := by cases m <;> decide

theorem finalOutput_of_wholeBlock (P : Primitives) {sl : Slot} (h : sl.mode = .ecb ∨ sl.mode = .cbc) :
    sl.finalOutput P = [] := by
  rcases h with h | h <;> simp only [Slot.finalOutput, h]

theorem finalOutput_of_stream (P : Primitives) {sl : Slot} (h : sl.mode = .cfb ∨ sl.mode = .ofb) :
    sl.finalOutput P = sl.tail P := by
  rcases h with h | h <;> simp only [Slot.finalOutput, h]

theorem getD_xorBytes {a b : Bytes} {i : Nat} (ha : i < a.length) (hb : i < b.length) :
    (xorBytes a b).getD i 0 = a.getD i 0 ^^^ b.getD i 0 := by
  simp [xorBytes, ha, hb]

/-- The keystream that `mode.final` uses has `NB` bytes (R139). -/
theorem length_keystream (P : Primitives) {sl : Slot} (h : sl.Ready) :
    ((sl.enc P sl.reg).take sl.nb).length = sl.nb := by
  have hE : (sl.enc P sl.reg).length = sl.blockLen := P.encrypt_length _ _ _ (length_reg h.rWidth)
  have := h.partialBlock
  rw [List.length_take]
  omega

theorem length_tail (P : Primitives) {sl : Slot} (h : sl.Ready) : (sl.tail P).length = sl.nb := by
  rw [Slot.tail, length_xorBytes, length_keystream P h]
  exact Nat.min_self _

/-- Settles O52: the tail read byte by byte. -/
theorem tailUsesLeadingKeystream : Obligations.TailUsesLeadingKeystream := by
  intro P hw sl hgood hkind hmode
  have hready := ready_of_good hgood hkind
  rw [finalOutput_of_stream P hmode]
  refine ⟨length_tail P hready, fun i hi => ?_⟩
  rw [Slot.tail, getD_xorBytes hi (by rwa [length_keystream P hready])]
  simp [Slot.enc, hi]

/-! Several inputs -/

section
variable (P : Primitives) {sl : Slot}

/-- The empty input changes nothing. -/
theorem absorb_nil (h : sl.Ready) : sl.absorb P [] = (sl, []) := by
  have hfull : sl.fullBlocks 0 = 0 := Nat.div_eq_of_lt h.partialBlock
  have hreg : sl.withReg sl.reg = sl := by rw [Slot.withReg, h.regPadded]
  have hrun : runBlocks (sl.step P) sl.blockLen (sl.fullBlocks 0) sl.reg (sl.bbuf ++ []) = ([], sl.reg, sl.bbuf) := by
    rw [hfull, runBlocks_zero, List.append_nil]
  rw [absorb_of_run P sl (data := []) hrun, hreg]

/-- Two inputs in turn are their concatenation at once: the loop runs the first input's blocks and then the second's
(R143). -/
theorem absorb_append (h : sl.r.length = bmax) (a b : Bytes) :
    sl.absorb P (a ++ b) =
      (((sl.absorb P a).1.absorb P b).1, (sl.absorb P a).2 ++ ((sl.absorb P a).1.absorb P b).2) := by
  have hB : 0 < sl.blockLen := sl.blockLen_pos
  have hcount : sl.fullBlocks (a ++ b).length =
      sl.fullBlocks a.length + (sl.absorb P a).1.fullBlocks b.length := by
    have hdiv := Nat.div_add_mod (sl.nb + a.length) sl.blockLen
    show (sl.nb + (a ++ b).length) / sl.blockLen =
      (sl.nb + a.length) / sl.blockLen + ((sl.absorb P a).1.nb + b.length) / sl.blockLen
    rw [absorb_nb, List.length_append, ← Nat.mul_add_div hB]
    congr 1
    omega
  have hsplit : runBlocks (sl.step P) sl.blockLen (sl.fullBlocks a.length) sl.reg (sl.bbuf ++ (a ++ b)) =
      ((sl.absorb P a).2, (sl.absorb P a).1.reg, (sl.absorb P a).1.bbuf ++ b) := by
    rw [← List.append_assoc, runBlocks_append _ _ _ _ _ _ (fullBlocks_le sl a), absorb_reg P h a]
    rfl
  refine absorb_of_run P sl ?_
  rw [hcount, runBlocks_add, hsplit]
  rfl

/-- Feeding several inputs in turn is feeding their concatenation (R143). -/
theorem absorbAll_eq_absorb (h : sl.Ready) (chunks : List Bytes) :
    sl.absorbAll P chunks = sl.absorb P chunks.flatten := by
  induction chunks generalizing sl with
  | nil => exact (absorb_nil P h).symm
  | cons d ds ih =>
    rw [List.flatten_cons, absorb_append P h.rWidth, ← ih (absorb_ready P h.rWidth d)]
    rfl

theorem output_eq (h : sl.Ready) (chunks : List Bytes) :
    sl.output P chunks = (sl.absorb P chunks.flatten).2 ++ (sl.absorb P chunks.flatten).1.finalOutput P := by
  rw [Slot.output, absorbAll_eq_absorb P h]

end

/-- Settles O53: either way the context absorbs the concatenation at once. -/
theorem chunkingIndependence : Obligations.ChunkingIndependence := by
  intro P hw sl chunks hgood hkind _
  have hready := ready_of_good hgood hkind
  refine ⟨absorbAll_eq_absorb P hready chunks, ?_⟩
  rw [output_eq P hready, output_eq P hready, List.flatten_singleton]

/-- Settles O54: an opened context buffers nothing. -/
theorem outputLength : Obligations.OutputLength := by
  intro P alg m d key iv chunks hiv L B sl
  have hready : sl.Ready := openMode_ready m d key hiv
  have hout : (sl.absorb P chunks.flatten).2.length = L / B * B := by
    rw [absorb_out_length P sl _ hready.rWidth]
    show (0 + L) / B * B = L / B * B
    rw [Nat.zero_add]
  have hnb : (sl.absorb P chunks.flatten).1.nb = L % B := by
    rw [absorb_nb]
    show (0 + L) % B = L % B
    rw [Nat.zero_add]
  rw [output_eq P hready, absorbAll_eq_absorb P hready, List.length_append, hout]
  refine ⟨rfl, hnb, fun hm => ?_, fun hm => ?_⟩
  · rw [finalOutput_of_stream P hm, length_tail P (absorb_ready P hready.rWidth _), hnb, Nat.div_add_mod']
  · rw [finalOutput_of_wholeBlock P hm, List.length_nil, Nat.add_zero]

/-! Decrypting -/

/-- Each mode's decryption step undoes its encryption step from the same register and leaves the same register; ECB and
CBC need `INV_alg` (R132 to R137). -/
theorem blockStep_inverts {E D : Bytes → Bytes} {B : Nat} (m : Mode) (hE : ∀ x, x.length = B → (E x).length = B)
    (hinv : (m = .ecb ∨ m = .cbc) → ∀ x, x.length = B → D (E x) = x) {R x : Bytes} (hR : R.length = B)
    (hx : x.length = B) :
    blockStep E D m .dec R (blockStep E D m .enc R x).1 = (x, (blockStep E D m .enc R x).2) := by
  have hxR : xorBytes (xorBytes x R) R = x := xorBytes_cancel_right (hx.trans hR.symm).le
  have hxE : xorBytes (xorBytes x (E R)) (E R) = x := xorBytes_cancel_right (hx.trans (hE R hR).symm).le
  cases m with
  | ecb => rw [blockStep_ecb_enc, blockStep_ecb_dec, hinv (.inl rfl) x hx]
  | cbc =>
    have hlen : (xorBytes x R).length = B := by rw [length_xorBytes, hx, hR, Nat.min_self]
    rw [blockStep_cbc_enc, blockStep_cbc_dec, hinv (.inr rfl) _ hlen, hxR]
  | cfb => rw [blockStep_cfb_enc, blockStep_cfb_dec, hxE]
  | ofb => rw [blockStep_ofb, blockStep_ofb, hxE]

/-- The tail of the tail is the buffer again: the keystream is the same in either direction (R139). -/
theorem tail_inverts (P : Primitives) {sl : Slot} (h : sl.Ready) (d : Dir) :
    Slot.tail P { sl with dir := d, bbuf := sl.tail P } = sl.bbuf := by
  have hkey : (sl.enc P sl.reg).take (sl.tail P).length = (sl.enc P sl.reg).take sl.nb := by rw [length_tail P h]
  show xorBytes (sl.tail P) ((sl.enc P sl.reg).take (sl.tail P).length) = sl.bbuf
  rw [hkey, Slot.tail]
  exact xorBytes_cancel_right (length_keystream P h).ge

theorem finalOutput_inverts (P : Primitives) {sl : Slot} (h : sl.Ready) (d : Dir)
    (hblocks : (sl.mode = .ecb ∨ sl.mode = .cbc) → sl.bbuf = []) :
    Slot.finalOutput P { sl with dir := d, bbuf := sl.finalOutput P } = sl.bbuf := by
  rcases mode_cases sl.mode with hm | hm
  · rw [hblocks hm]
    exact finalOutput_of_wholeBlock P hm
  · rw [finalOutput_of_stream P hm]
    exact (finalOutput_of_stream P (sl := { sl with dir := d, bbuf := sl.tail P }) hm).trans (tail_inverts P h d)

theorem finalOutput_length_le (P : Primitives) {sl : Slot} (h : sl.Ready) : (sl.finalOutput P).length ≤ sl.nb := by
  rw [finalOutput_length P h.rWidth h.partialBlock]
  cases sl.mode <;> simp

/-- A context that decrypts, fed what a fresh one encrypted and less than a block more, outputs the whole blocks of
the message, holds the same register and keeps the bytes past the blocks. -/
theorem absorb_inverts (P : Primitives) {sl : Slot} (h : sl.r.length = bmax) (hempty : sl.bbuf = [])
    (hdir : sl.dir = .enc)
    (hinv : (sl.mode = .ecb ∨ sl.mode = .cbc) → ∀ x, x.length = sl.blockLen → sl.dec P (sl.enc P x) = x)
    (x : Bytes) {more : Bytes} (hmore : more.length < sl.blockLen) :
    Slot.absorb P { sl with dir := .dec } ((sl.absorb P x).2 ++ more) =
      ({ (sl.absorb P x).1 with dir := .dec, bbuf := more }, x.take (sl.fullBlocks x.length * sl.blockLen)) := by
  have hstep : sl.step P = blockStep (sl.enc P) (sl.dec P) sl.mode .enc := by rw [Slot.step, hdir]
  have hundo : ∀ R y, R.length = sl.blockLen → y.length = sl.blockLen →
      Slot.step P { sl with dir := .dec } R (sl.step P R y).1 = (y, (sl.step P R y).2) := by
    intro R y hR hy
    rw [hstep]
    exact blockStep_inverts sl.mode (fun _ hz => P.encrypt_length _ _ _ hz) hinv hR hy
  have hfits : sl.fullBlocks x.length * sl.blockLen ≤ x.length := by
    simpa [hempty] using fullBlocks_le sl x
  have hcount :
      Slot.fullBlocks { sl with dir := .dec } ((sl.absorb P x).2 ++ more).length = sl.fullBlocks x.length := by
    show (sl.nb + _) / sl.blockLen = _
    rw [List.length_append, absorb_out_length P sl x h, Slot.nb, hempty, List.length_nil, Nat.zero_add, Nat.mul_comm,
      Nat.mul_add_div sl.blockLen_pos, Nat.div_eq_of_lt hmore, Nat.add_zero]
  have hrun : runBlocks (Slot.step P { sl with dir := .dec }) sl.blockLen
      (Slot.fullBlocks { sl with dir := .dec } ((sl.absorb P x).2 ++ more).length) sl.reg
      (sl.bbuf ++ ((sl.absorb P x).2 ++ more)) =
        (x.take (sl.fullBlocks x.length * sl.blockLen),
          (runBlocks (sl.step P) sl.blockLen (sl.fullBlocks x.length) sl.reg x).2.1, more) := by
    rw [hcount, hempty, List.nil_append, absorb_out, hempty, List.nil_append]
    exact runBlocks_inverts (sl.step P) sl.blockLen _ (slotStep_length P sl) hundo _ sl.reg x more (length_reg h)
      hfits
  refine (absorb_of_run P { sl with dir := .dec } hrun).trans ?_
  rw [absorb_slot, hempty]
  rfl

/-- Settles O55: the whole blocks come back from the update, and the bytes past them from the final. -/
theorem roundTrip : Obligations.RoundTrip := by
  intro P alg m key iv plain cipher hkey hiv hblocks hcipher
  have henc : (Slot.openMode alg m .enc key iv).Ready := openMode_ready m .enc key hiv
  have hdec : (Slot.openMode alg m .dec key iv).Ready := openMode_ready m .dec key hiv
  rw [output_eq P hdec, hcipher, output_eq P henc]
  generalize hsl : Slot.openMode alg m .enc key iv = sl at henc
  have hafter : (sl.absorb P plain.flatten).1.Ready := absorb_ready P henc.rWidth _
  have hinv : (sl.mode = .ecb ∨ sl.mode = .cbc) → ∀ x, x.length = sl.blockLen → sl.dec P (sl.enc P x) = x := by
    subst hsl
    exact fun hm x hx => (hblocks hm).1 key x hkey hx
  have hwhole : (sl.mode = .ecb ∨ sl.mode = .cbc) → (sl.absorb P plain.flatten).1.bbuf = [] := by
    intro hm
    refine List.length_eq_zero_iff.1 ((absorb_nb P sl _).trans ?_)
    subst hsl
    exact (congrArg (· % blockBytes alg) (Nat.zero_add _)).trans (hblocks hm).2
  have hback := absorb_inverts P henc.rWidth (by rw [← hsl]; rfl) (by rw [← hsl]; rfl) hinv plain.flatten
    ((finalOutput_length_le P hafter).trans_lt hafter.partialBlock)
  have hslDec : Slot.openMode alg m .dec key iv = { sl with dir := .dec } := by rw [← hsl]; rfl
  have hbbuf := absorb_bbuf P sl plain.flatten
  rw [hslDec, hback, finalOutput_inverts P hafter .dec hwhole, hbbuf]
  subst hsl
  exact List.take_append_drop _ _

end Sys2Proof.Machine
end

section
/-! PROOFS. The digest of an HMAC context (41_hmac_engine.md section 3, rules R188, R189). -/

namespace Sys2Proof.Machine

/-- Under `INCR_h` feeding several inputs is feeding the hash state their concatenation. -/
theorem feedAll_eq (P : Primitives) {sl : Slot} {hs : HState} (hincr : P.IncrHash sl.hash) (hstate : sl.hs = some hs)
    (ms : List Bytes) : sl.feedAll P ms = { sl with hs := some (P.hashUpdate sl.hash hs ms.flatten) } := by
  induction ms generalizing sl hs with
  | nil =>
    rw [List.flatten_nil, hincr.2, ← hstate]
    rfl
  | cons m ms ih =>
    have hfeed : sl.feed P m = { sl with hs := some (P.hashUpdate sl.hash hs m) } := by
      rw [Slot.feed, hashState_of_some P hstate]
    have hrest := ih (sl := sl.feed P m) hincr (congrArg Slot.hs hfeed)
    show (sl.feed P m).feedAll P ms = _
    rw [hrest, hfeed, List.flatten_cons, ← hincr.1]

/-- Settles O57: the inner hash has absorbed `IPAD` and then the message. -/
theorem hmacDigestFormula : Obligations.HmacDigestFormula := by
  intro P h key ms hincr
  have hfed := feedAll_eq P (sl := Slot.openHmac P h key) hincr rfl ms
  rw [hfed]
  show P.hash h ((Slot.openHmac P h key).opad.take (P.hashBlock h) ++
    P.hashFinal h (P.hashUpdate h (P.hashUpdate h (P.hashInit h) (hmacIpad P h key)) ms.flatten)) = _
  rw [openHmac_opad, hincr.1]
  rfl

end Sys2Proof.Machine
end
